-- ==== Sys2Proof/Word.lean ====
section
/-! DEFINITION. The two value types of the block (00_scope.md R10): `u8` and `u16`, both unsigned. Everything that is done
to them (byte order, zero extension) is in Machine/Operands.lean. -/

namespace Sys2Proof

/-- `u8` of 00_scope.md R10. -/
abbrev Byte := BitVec 8

/-- `u16` of 00_scope.md R10: the accumulator, a CRC value, a command word. -/
abbrev Word := BitVec 16

end Sys2Proof
end

