-- ==== Sys2Proof/Config.lean ====
section
/-! DEFINITION. The constants the source fixes (00_scope.md R7, 10_state.md R25) and the types of the parameters it leaves
open (00_scope.md R8, 92_eei_decisions.md D10, D20, D21). `BUF_CAP` is held in the state, so that a statement about every
state is a statement about every capacity (log entry 3). No value of the block is free, so no constant here is opaque. -/

namespace Sys2Proof.Config

/-- `POLY`, 00_scope.md R7. -/
@[simp] abbrev poly : Word := 0xA001#16

/-- `INIT`, 00_scope.md R7. -/
@[simp] abbrev init : Word := 0xFFFF#16

/-- `VMIN`, 00_scope.md R7: the shortest sequence `validateCRC` does not reject outright. -/
@[simp] abbrev vMin : Nat := 3

/-- `MINLEN`, 00_scope.md R7: the shortest candidate length the splitter tries. -/
@[simp] abbrev minLen : Nat := 4

/-- `TAIL`, 00_scope.md R7: how many trailing bytes are kept when no candidate length validates. -/
@[simp] abbrev tail : Nat := 3

/-- `BUF_CAP` of 00_scope.md R8: `none` is "unbounded"; a finite capacity is at least 4, which
`WellFormed.bufCap` checks and the machine's invariant carries. -/
abbrev BufCap := Option Nat

/-- What the out-of-block response decoder leaves open (00_scope.md R8, 45_decoder_reference.md R174, 91_not_in_source.md
N9, N10). An argument of the decoder: a statement about it holds for every choice. -/
structure DecoderParams where
  /-- `ERR_TABLE`: the description of an exception function code, if the table has one. -/
  errTable : Byte → Option String
  /-- `FUNC_TABLE`: defined by R174, read by no rule. -/
  funcTable : Byte → Option String
  /-- `ERR_TRUNC_TEXT`: the reason text of R172. -/
  errTruncText : String
  /-- Whether `<hex>` of R165 writes its letter digits in capitals (N10: not in the source). -/
  hexUpper : Bool

end Sys2Proof.Config
end

