-- ==== Sys2Proof/Syntax.lean ====
section
/-! DEFINITION. The ten commands of 30_encoding.md R64, one constructor per row of spec/opcode_table.json. An illegal word
is no row of the table: decoding refuses it by name (Decode.lean) and the step answers it as 42_system.md R151 says. -/

namespace Sys2Proof

/-- A command of the block (30_encoding.md R64, R68). The operand of a format B command is one byte (R63). -/
inductive Instr where
  /-- `NOP`, 42_system.md R150. -/
  | nop
  /-- `CRC_INIT`, 40_crc.md R105. -/
  | crcInit
  /-- `CRC_UPD d`, 40_crc.md R106. -/
  | crcUpd (d : Byte)
  /-- `CRC_GET`, 40_crc.md R107. -/
  | crcGet
  /-- `CRC_CHK`, 40_crc.md R108. -/
  | crcChk
  /-- `FS_PUSH d`, 41_splitter.md R121. -/
  | fsPush (d : Byte)
  /-- `FS_COMMIT`, 41_splitter.md R125. -/
  | fsCommit
  /-- `FS_CLEAR`, 41_splitter.md R127. -/
  | fsClear
  /-- `FS_STAT`, 41_splitter.md R128. -/
  | fsStat
  /-- `FS_PEEK k`, 41_splitter.md R129. -/
  | fsPeek (k : Byte)
  deriving DecidableEq, Repr

end Sys2Proof
end

