-- ==== Sys2Proof/WellFormed.lean ====
section
/-! DEFINITION. What is legal. An operand is a byte by its type, so every `Instr` is well formed; what can be ill formed is
a command word (30_encoding.md R62, R63, R75) and a buffer capacity (00_scope.md R8). -/

namespace Sys2Proof

/-- One row of the opcode map: a word is the row's command exactly when `w &&& mask = pattern`. -/
structure OpcodeRow where
  mask : Word
  pattern : Word
  deriving DecidableEq, Repr

/-- The ten rows of 30_encoding.md R64 with the masks of R62 and R63, as spec/opcode_table.json lists them. -/
def opcodeTable : List OpcodeRow :=
  [⟨0xFFFF#16, 0x0000#16⟩, ⟨0xFFFF#16, 0x1000#16⟩, ⟨0xFF00#16, 0x2000#16⟩, ⟨0xFFFF#16, 0x3000#16⟩,
   ⟨0xFFFF#16, 0x4000#16⟩, ⟨0xFF00#16, 0x8000#16⟩, ⟨0xFFFF#16, 0x9000#16⟩, ⟨0xFFFF#16, 0xA000#16⟩,
   ⟨0xFFFF#16, 0xB000#16⟩, ⟨0xFF00#16, 0xC000#16⟩]

/-- 30_encoding.md R75: the rows and their masks decide whether a word is a command. -/
def OpcodeRow.matches (r : OpcodeRow) (w : Word) : Bool := w &&& r.mask == r.pattern

/-- A legal command word, by the table alone. -/
def WellFormed.word (w : Word) : Bool := opcodeTable.any fun r => r.matches w

/-- 00_scope.md R8: `BUF_CAP` is "natural number at least 4, or unbounded". -/
def WellFormed.bufCap (c : Config.BufCap) : Bool := c.all fun n => 4 ≤ n

end Sys2Proof
end

