-- ==== Sys2Proof/Decode.lean ====
section
/-! DEFINITION. From a 16-bit command word to a command or a named reason for refusing it (30_encoding.md R61 to R68), and
back. A word is one value presented whole: it has no byte order (20_memory.md R45). -/

namespace Sys2Proof

/-- Why a word is no command: the three cases of 30_encoding.md R68, in the order that rule tests them. -/
inductive Illegal where
  /-- R65: the operation code is reserved. -/
  | reservedOp (op : BitVec 4)
  /-- R66: the `rsv` field is not zero. -/
  | reservedBits (rsv : BitVec 4)
  /-- R66: a format N word whose `d` field is not zero. -/
  | strayOperand (d : Byte)
  deriving DecidableEq, Repr

/-- `op = w[15:12]`, 30_encoding.md R61. -/
def opField (w : Word) : BitVec 4 := w.extractLsb' 12 4

/-- `rsv = w[11:8]`, 30_encoding.md R61. -/
def rsvField (w : Word) : BitVec 4 := w.extractLsb' 8 4

/-- `d = w[7:0]`, 30_encoding.md R61. -/
def dField (w : Word) : Byte := w.extractLsb' 0 8

/-- A format B word (30_encoding.md R63): `rsv` must be zero, `d` is the operand. -/
def decodeFormatB (w : Word) (command : Byte → Instr) : Except Illegal Instr :=
  if rsvField w = 0#4 then .ok (command (dField w)) else .error (.reservedBits (rsvField w))

/-- A format N word (30_encoding.md R62): `rsv` and `d` must be zero. -/
def decodeFormatN (w : Word) (command : Instr) : Except Illegal Instr :=
  if rsvField w = 0#4 then
    if dField w = 0#8 then .ok command else .error (.strayOperand (dField w))
  else .error (.reservedBits (rsvField w))

/-- The decoding procedure of 30_encoding.md R68, total on all words. -/
def decode (w : Word) : Except Illegal Instr :=
  match (opField w).toNat with
  | 0x0 => decodeFormatN w .nop
  | 0x1 => decodeFormatN w .crcInit
  | 0x2 => decodeFormatB w .crcUpd
  | 0x3 => decodeFormatN w .crcGet
  | 0x4 => decodeFormatN w .crcChk
  | 0x8 => decodeFormatB w .fsPush
  | 0x9 => decodeFormatN w .fsCommit
  | 0xA => decodeFormatN w .fsClear
  | 0xB => decodeFormatN w .fsStat
  | 0xC => decodeFormatB w .fsPeek
  | _ => .error (.reservedOp (opField w))

/-- The operation code of a command, 30_encoding.md R64. -/
def opcode : Instr → BitVec 4
  | .nop => 0x0#4
  | .crcInit => 0x1#4
  | .crcUpd _ => 0x2#4
  | .crcGet => 0x3#4
  | .crcChk => 0x4#4
  | .fsPush _ => 0x8#4
  | .fsCommit => 0x9#4
  | .fsClear => 0xA#4
  | .fsStat => 0xB#4
  | .fsPeek _ => 0xC#4

/-- The `d` field of a command's word: the operand in format B, zero in format N (30_encoding.md R61). -/
def operandByte : Instr → Byte
  | .crcUpd d => d
  | .fsPush d => d
  | .fsPeek k => k
  | .nop | .crcInit | .crcGet | .crcChk | .fsCommit | .fsClear | .fsStat => 0x00#8

/-- A word from its fields: `op` in bits 15 to 12, `rsv` zero, `d` in bits 7 to 0 (30_encoding.md R61). -/
def wordOf (op : BitVec 4) (d : Byte) : Word := (op.setWidth 16 <<< 12) ||| d.setWidth 16

/-- The word of a command, 30_encoding.md R64. -/
def encode (i : Instr) : Word := wordOf (opcode i) (operandByte i)

/-- The word a number of `nbits` bits stands for, bits above `nbits` zero (log entry 5). -/
def tableWord (nbits w : Nat) : Word := BitVec.ofNat 16 (w % 2 ^ nbits)

/-- What the decoder reads from a word numbered as spec/opcode_table.json numbers it. -/
def decodeTableWord (nbits w : Nat) : Option Instr := (decode (tableWord nbits w)).toOption

end Sys2Proof
end

