-- ==== Sys2Proof/Machine/State.lean ====
section
/-! DEFINITION. The state of the block (10_state.md R20), its responses (30_encoding.md R70, R71), and the state after
reset (10_state.md R32, 70_reset_and_hazards.md R210). -/

namespace Sys2Proof.Machine

/-- The three error codes, 30_encoding.md R71 and 60_exceptions.md R191. -/
inductive ErrCode where
  /-- The word is no legal command. -/
  | illegal
  /-- `FS_PEEK` of an address not below `len(BUF)`. -/
  | range
  /-- `FS_PUSH` with the buffer full. -/
  | overflow
  deriving DecidableEq, Repr

/-- A response value, 30_encoding.md R70. -/
inductive Rsp where
  | ok
  | crc (v : Word)
  | valid (b : Bool)
  /-- The frames extracted, in order, and the bytes discarded (R70, 41_splitter.md R139). -/
  | frames (fs : List (List Byte)) (dropped : List Byte)
  | stat (len : Nat) (ovf : Bool) (cnt : Fin 4)
  | byte (v : Byte)
  | err (code : ErrCode)
  deriving DecidableEq, Repr

/-- No command can stop the block: 60_exceptions.md R190 ("raises no exception and takes no trap") and R204 ("Nothing else
in the block is a fault, a stuck state or a refusal"). So there is no fault; nothing raises one. -/
inductive Fault where
  deriving DecidableEq, Repr

/-- Why a step has no meaning. -/
inductive Refusal where
  /-- An instruction without a meaning. Every command has its meaning, so nothing raises this; it would be safe. -/
  | notModelled (mnemonic : String)
  deriving DecidableEq, Repr

/-- The content of the buffer, oldest byte first: index 0 is the front (10_state.md R23). -/
abbrev Memory := List Byte

/-- The four state elements of 10_state.md R20, the capacity `BUF_CAP` of 00_scope.md R8, which no command writes, and the
model's own two ends of the command port (10_state.md R27 (b): the command and the response are the step's input and
output; log entries 1 and 2). -/
structure State where
  /-- `ACC`, 10_state.md R21. -/
  acc : Word
  /-- `CNT`, 10_state.md R22. -/
  cnt : Fin 4
  /-- `BUF`, 10_state.md R23. -/
  buf : Memory
  /-- `OVF`, 10_state.md R24. -/
  ovf : Bool
  /-- `BUF_CAP`, 20_memory.md R56. -/
  bufCap : Config.BufCap
  /-- MODEL: the command words the host has yet to present, next one first. -/
  port : List Word
  /-- MODEL: the responses given so far, oldest first. -/
  rsps : List Rsp
  deriving DecidableEq, Repr

/-- Reset of a block whose capacity is `cap`: 10_state.md R32, 70_reset_and_hazards.md R210. Nothing has been presented and
nothing answered (log entries 1, 2). -/
def State.resetWith (cap : Config.BufCap) : State where
  acc := Config.init
  cnt := 0
  buf := []
  ovf := false
  bufCap := cap
  port := []
  rsps := []

/-- The machine right after reset, with `BUF_CAP` unbounded (DESIGN CHOICE, log entry 3: 00_scope.md R8 "Unbounded is
admitted and is the value under which the block equals the source exactly"). -/
def State.reset : State := State.resetWith none

end Sys2Proof.Machine
end

