-- ==== Sys2Proof/Machine/Operands.lean ====
section
/-! DEFINITION. The operand of a format B command (30_encoding.md R63) and the byte and word notation of 00_scope.md R10. -/

namespace Sys2Proof.Machine

/-- `zext_16(b)`, 00_scope.md R10. -/
def zext16 (b : Byte) : Word := b.setWidth 16

/-- `lo8(w) = w[7:0]`, 00_scope.md R10. -/
def lo8 (w : Word) : Byte := w.extractLsb' 0 8

/-- `hi8(w) = w[15:8]`, 00_scope.md R10. -/
def hi8 (w : Word) : Byte := w.extractLsb' 8 8

/-- `le16(a, b)`: `a` is the low byte and comes first (00_scope.md R10, 20_memory.md R43). -/
def le16 (a b : Byte) : Word := zext16 a ^^^ (zext16 b <<< 8)

/-- `toLE16(w) = [lo8(w), hi8(w)]`, 40_crc.md R94. -/
def toLE16 (w : Word) : List Byte := [lo8 w, hi8 w]

/-- The operand as a data byte (`CRC_UPD`, `FS_PUSH`), 30_encoding.md R63. -/
def dataOperand (d : Byte) : Byte := d

/-- The operand as a buffer address (`FS_PEEK`): the unsigned value 0 to 255 (30_encoding.md R63, 20_memory.md R42). -/
def addressOperand (k : Byte) : Nat := k.toNat

/-- The numbers of the error codes, 30_encoding.md R71. -/
def ErrCode.number : ErrCode → Nat
  | .illegal => 1
  | .range => 2
  | .overflow => 3

end Sys2Proof.Machine
end

