-- ==== Sys2Proof/Machine/Ops.lean ====
section
/-! DEFINITION. The named operations over the state: one update per field, the buffer as memory (20_memory.md), giving a
response (30_encoding.md R70), taking a word from the command port, and the reset event. There is no exception to take: an
error is a response like any other (60_exceptions.md R190, R194), and `respondErr` is the one place that gives it. -/

namespace Sys2Proof.Machine

/-- `ACC <- v`. -/
def State.setAcc (s : State) (v : Word) : State := { s with acc := v }

/-- `CNT <- c`. -/
def State.setCnt (s : State) (c : Fin 4) : State := { s with cnt := c }

/-- `BUF <- m`. -/
def State.setBuf (s : State) (m : Memory) : State := { s with buf := m }

/-- `OVF <- b`. -/
def State.setOvf (s : State) (b : Bool) : State := { s with ovf := b }

/-- The words the host has yet to present become `ws`. -/
def State.setPort (s : State) (ws : List Word) : State := { s with port := ws }

/-- One more response is given. -/
def State.addRsp (s : State) (r : Rsp) : State := { s with rsps := s.rsps ++ [r] }

/-- `BUF[k]`, defined exactly for `k < len(BUF)`: every other address holds nothing (20_memory.md R40, R49). -/
def Memory.read (m : Memory) (k : Nat) : Option Byte := m[k]?

/-- `BUF <- BUF ++ [d]`: a new byte goes to the back, at address `len(BUF)` (10_state.md R23, 20_memory.md R40). -/
def Memory.append (m : Memory) (d : Byte) : Memory := m ++ [d]

/-- `BUF <- BUF[i:]`: the `i` oldest bytes go, the others move down by `i` (20_memory.md R41). -/
def Memory.removeFront (m : Memory) (i : Nat) : Memory := m.drop i

/-- `BUF <- []`. The content emptied does not matter (41_splitter.md R127). -/
def Memory.clear (_ : Memory) : Memory := []

/-- `len(BUF) = BUF_CAP`, the test of 41_splitter.md R121; never true of an unbounded buffer. -/
def Memory.isFull (cap : Config.BufCap) (m : Memory) : Bool := cap == some m.length

/-- The buffer fits its capacity (20_memory.md R56). A sequence has one form, so equal buffers are equal data (log entry
6). -/
def Memory.wf (cap : Config.BufCap) (m : Memory) : Bool := cap.all fun n => m.length ≤ n

/-- The buffer as (address, byte) cells: address `k` holds `BUF[k]`, addresses rising from 0 (20_memory.md R49). -/
def Memory.cells (m : Memory) : List Host.Cell := m.zipIdx.map fun p => (p.2, p.1)

/-- `respond r` (00_scope.md R10): the command ends with response `r`. -/
def respond (r : Rsp) (s : State) : Host.Outcome State Fault Refusal := .next (s.addRsp r)

/-- `respond Err(code)` (60_exceptions.md R191, R194): the whole of what an error does, but for `OVF`. -/
def respondErr (code : ErrCode) (s : State) : Host.Outcome State Fault Refusal := respond (.err code) s

/-- The word the host presents next and the state without it; `none` when the command list is exhausted
(20_memory.md R51, 70_reset_and_hazards.md R224). -/
def takeWord (s : State) : Option (Word × State) :=
  match s.port with
  | [] => none
  | w :: ws => some (w, s.setPort ws)

/-- Between commands "the block simply holds its state" (60_exceptions.md R201); log entry 4. -/
def holdState (s : State) : Host.Outcome State Fault Refusal := .next s

/-- A word presented ahead of all others. -/
def presentWord (s : State) (w : Word) : State := s.setPort (w :: s.port)

/-- The reset event (70_reset_and_hazards.md R210): the four state elements take the values of 10_state.md R32. No command
is a reset; how it is delivered is not decided, so no step calls this (log entry 7). -/
def resetEvent (s : State) : State :=
  { State.resetWith s.bufCap with port := s.port, rsps := s.rsps }

end Sys2Proof.Machine
end

