-- ==== Sys2Proof/Machine/System.lean ====
section
/-! DEFINITION. `NOP` and the treatment of an illegal word, 42_system.md. -/

namespace Sys2Proof.Machine

/-- `NOP`, 42_system.md R150: reads nothing, writes nothing. -/
def execNop (s : State) : Host.Outcome State Fault Refusal := respond .ok s

/-- A word that is no command, 42_system.md R151: no state is read or written, and `OVF` is not set. -/
def execIllegal (s : State) : Host.Outcome State Fault Refusal := respondErr .illegal s

end Sys2Proof.Machine
end

