-- ==== Sys2Proof/Machine/CrcFunctions.lean ====
section
/-! DEFINITION. The pure functions of unit C, 40_crc.md Part 1: bit step, byte step, whole sequence, validator; the table of
R100; and the frame of 30_encoding.md R60. -/

namespace Sys2Proof.Machine

/-- Bit step, 40_crc.md R90: bit 0 before the shift decides whether `POLY` is XORed in. -/
def crcBit (a : Word) : Word := if a.getLsbD 0 then (a >>> 1) ^^^ Config.poly else a >>> 1

/-- Byte step, 40_crc.md R91: the byte is XORed into the low 8 bits, then exactly eight bit steps. -/
def crcByte (a : Word) (d : Byte) : Word := crcBit^[8] (a ^^^ zext16 d)

/-- The left fold of `crcByte` from any starting value (40_crc.md R99). -/
def crcFold (a : Word) (bs : List Byte) : Word := bs.foldl crcByte a

/-- Whole sequence, 40_crc.md R92: no final XOR, no reversal, no byte swap. -/
def computeCRC16 (bs : List Byte) : Word := crcFold Config.init bs

/-- Validator, 40_crc.md R96: the CRC of all but the last two bytes against those two, low byte first. -/
def validateCRC (f : List Byte) : Bool :=
  let n := f.length
  if n < Config.vMin then false
  else computeCRC16 (f.take (n - 2)) == le16 (f.getD (n - 2) 0#8) (f.getD (n - 1) 0#8)

/-- `T[t] = crcBit^8(zext_16(t))`, 40_crc.md R100. -/
def crcTable (t : Byte) : Word := crcBit^[8] (zext16 t)

/-- The generator's frame for a body, 40_crc.md R94: the body, then its CRC low byte first. -/
def frameOf (body : List Byte) : List Byte := body ++ toLE16 (computeCRC16 body)

/-- A frame, 30_encoding.md R60: address, function, payload, and the CRC of all bytes before it. -/
def isFrame (f : List Byte) : Bool := Config.minLen ≤ f.length && validateCRC f

end Sys2Proof.Machine
end

