-- ==== Sys2Proof/Machine/Flags.lean ====
section
/-! DEFINITION. The one flag, `OVF` (10_state.md R28), and the saturating byte counter `CNT` (10_state.md R22). The block
has no other flag: verdicts and extractions are in responses only. -/

namespace Sys2Proof.Machine

/-- `OVF <- 1`; no command clears it (10_state.md R24). -/
def raiseOvf (s : State) : State := s.setOvf true

/-- `min(CNT + 1, 3)`, 40_crc.md R95 and R106. -/
def cntSucc (c : Fin 4) : Fin 4 := ⟨min (c.val + 1) 3, by omega⟩

/-- `CNT` for a message of `n` bytes: `min(n, 3)`, 10_state.md R22. -/
def cntOf (n : Nat) : Fin 4 := ⟨min n 3, by omega⟩

end Sys2Proof.Machine
end

