-- ==== Sys2Proof/Machine/UnitC.lean ====
section
/-! DEFINITION. The commands of unit C, 40_crc.md Part 3. None reads or writes `BUF` or `OVF` (R110). -/

namespace Sys2Proof.Machine

/-- `CRC_INIT`, 40_crc.md R105. -/
def execCrcInit (s : State) : Host.Outcome State Fault Refusal :=
  respond .ok ((s.setAcc Config.init).setCnt 0)

/-- `CRC_UPD d`, 40_crc.md R106: both new values come from the state before the command. -/
def execCrcUpd (d : Byte) (s : State) : Host.Outcome State Fault Refusal :=
  respond .ok ((s.setAcc (crcByte s.acc (dataOperand d))).setCnt (cntSucc s.cnt))

/-- `CRC_GET`, 40_crc.md R107. -/
def execCrcGet (s : State) : Host.Outcome State Fault Refusal := respond (.crc s.acc) s

/-- `CRC_CHK`, 40_crc.md R108: the verdict is in the response only. -/
def execCrcChk (s : State) : Host.Outcome State Fault Refusal :=
  respond (.valid (s.cnt == 3 && s.acc == 0#16)) s

end Sys2Proof.Machine
end

