-- ==== Sys2Proof/Machine/SplitterFunctions.lean ====
section
/-! DEFINITION. The pure functions of unit S, 41_splitter.md Part 1: finding the frame at the front, repeated extraction
with the failure policy, and `ingest`. -/

namespace Sys2Proof.Machine

/-- The least `i` with `MINLEN <= i <= len(b)` and `validateCRC(b[0:i])`, 41_splitter.md R122: candidate lengths in
increasing order, the first that validates. -/
def findPrefix (b : List Byte) : Option Nat :=
  (List.range' Config.minLen (b.length + 1 - Config.minLen)).find? fun i => validateCRC (b.take i)

/-- What `commit` returns, 41_splitter.md R123: frames extracted, bytes discarded, buffer that remains. -/
structure CommitResult where
  frames : List (List Byte)
  dropped : List Byte
  rest : List Byte
  deriving DecidableEq, Repr

/-- The loop of 41_splitter.md R123. The first argument bounds the rounds; each successful round shortens `b` by at least
4, so `len(b)` rounds always suffice (R138) and the bound is never what ends the loop. -/
def commitLoop : Nat → List Byte → CommitResult
  | 0, b => ⟨[], [], b⟩
  | fuel + 1, b =>
    if b.length < Config.minLen then ⟨[], [], b⟩
    else
      match findPrefix b with
      | some i =>
        let later := commitLoop fuel (b.drop i)
        ⟨b.take i :: later.frames, later.dropped, later.rest⟩
      | none => ⟨[], b.take (b.length - Config.tail), b.drop (b.length - Config.tail)⟩

/-- `commit`, 41_splitter.md R123 and R124. -/
def commit (b : List Byte) : CommitResult := commitLoop b.length b

/-- `ingest(BUF, chunk) = commit(BUF ++ chunk)`, 41_splitter.md R126. -/
def ingest (b chunk : List Byte) : CommitResult := commit (b ++ chunk)

/-- The scan of 41_splitter.md R140 from a private accumulator `a` after `k` bytes. -/
def onePassFrom (a : Word) (k : Nat) : List Byte → Option Nat
  | [] => none
  | d :: ds =>
    let a' := crcByte a d
    if Config.minLen ≤ k + 1 ∧ a' = 0#16 then some (k + 1) else onePassFrom a' (k + 1) ds

/-- The one-pass form of the scan, 41_splitter.md R140; the model's definition is `findPrefix`. -/
def findPrefixOnePass (b : List Byte) : Option Nat := onePassFrom Config.init 0 b

end Sys2Proof.Machine
end

