-- ==== Sys2Proof/Machine/UnitS.lean ====
section
/-! DEFINITION. The commands of unit S, 41_splitter.md Part 2. None reads or writes `ACC`, none writes `CNT` (40_crc.md
R110). -/

namespace Sys2Proof.Machine

/-- `FS_PUSH d`, 41_splitter.md R121: a full buffer refuses the byte and `OVF` records the loss. -/
def execFsPush (d : Byte) (s : State) : Host.Outcome State Fault Refusal :=
  if Memory.isFull s.bufCap s.buf then respondErr .overflow (raiseOvf s)
  else respond .ok (s.setBuf (Memory.append s.buf (dataOperand d)))

/-- `FS_COMMIT`, 41_splitter.md R125. -/
def execFsCommit (s : State) : Host.Outcome State Fault Refusal :=
  let r := commit s.buf
  respond (.frames r.frames r.dropped) (s.setBuf r.rest)

/-- `FS_CLEAR`, 41_splitter.md R127: `OVF` keeps its value and the bytes emptied are not reported. -/
def execFsClear (s : State) : Host.Outcome State Fault Refusal :=
  respond .ok (s.setBuf (Memory.clear s.buf))

/-- `FS_STAT`, 41_splitter.md R128: the status view of 10_state.md R29. -/
def execFsStat (s : State) : Host.Outcome State Fault Refusal :=
  respond (.stat s.buf.length s.ovf s.cnt) s

/-- `FS_PEEK k`, 41_splitter.md R129. -/
def execFsPeek (k : Byte) (s : State) : Host.Outcome State Fault Refusal :=
  match Memory.read s.buf (addressOperand k) with
  | some v => respond (.byte v) s
  | none => respondErr .range s

end Sys2Proof.Machine
end

