-- ==== Sys2Proof/Machine/Dispatch.lean ====
section
/-! DEFINITION. From a command to its meaning, one arm per row of spec/opcode_table.json. -/

namespace Sys2Proof.Machine

def exec (i : Instr) (s : State) : Host.Outcome State Fault Refusal :=
  match i with
  | .nop => Sys2Proof.Machine.execNop s
  | .crcInit => Sys2Proof.Machine.execCrcInit s
  | .crcUpd d => Sys2Proof.Machine.execCrcUpd d s
  | .crcGet => Sys2Proof.Machine.execCrcGet s
  | .crcChk => Sys2Proof.Machine.execCrcChk s
  | .fsPush d => Sys2Proof.Machine.execFsPush d s
  | .fsCommit => Sys2Proof.Machine.execFsCommit s
  | .fsClear => Sys2Proof.Machine.execFsClear s
  | .fsStat => Sys2Proof.Machine.execFsStat s
  | .fsPeek k => Sys2Proof.Machine.execFsPeek k s

end Sys2Proof.Machine
end

