-- ==== Sys2Proof/Machine/Command.lean ====
section
/-! DEFINITION. One transaction: the word presented is decoded and its command performed, or answered as illegal
(00_scope.md R9, 30_encoding.md R68, 42_system.md R151). -/

namespace Sys2Proof.Machine

/-- The whole effect of presenting the word `w`. -/
def runWord (w : Word) (s : State) : Host.Outcome State Fault Refusal :=
  match decode w with
  | .ok i => exec i s
  | .error _ => execIllegal s

end Sys2Proof.Machine
end

