-- ==== Sys2Proof/Machine/Step.lean ====
section
/-! DEFINITION. One step: the next word the host presents is performed; with no word left the block holds its state
(20_memory.md R51, 60_exceptions.md R201, 70_reset_and_hazards.md R224). -/

namespace Sys2Proof.Machine

/-- One step of the machine. -/
def step (s : State) : Host.Outcome State Fault Refusal :=
  match takeWord s with
  | some (w, s') => runWord w s'
  | none => holdState s

/-- `s` with the word of `nbits` bits `w` presented next, ahead of any other (log entries 1 and 5). -/
def State.withFetchWord (s : State) (nbits w : Nat) : State := presentWord s (tableWord nbits w)

end Sys2Proof.Machine
end

