-- ==== Sys2Proof/Machine/Pseudo.lean ====
section
/-! DEFINITION. The assembler line of a command (30_encoding.md R72) and the pseudo-instructions (R73), each an expansion
into commands. No step reads these; they are how a host writes the source's four functions. -/

namespace Sys2Proof.Machine

/-- A hexadecimal digit; capitals as the examples of 30_encoding.md R72 write them (log entry 11). -/
def hexDigit (upper : Bool) (n : Nat) : String :=
  let letters := if upper then ["A", "B", "C", "D", "E", "F"] else ["a", "b", "c", "d", "e", "f"]
  (["0", "1", "2", "3", "4", "5", "6", "7", "8", "9"] ++ letters).getD n ""

/-- A byte as two hexadecimal digits. -/
def hexByte (upper : Bool) (b : Byte) : String := hexDigit upper (b.toNat / 16) ++ hexDigit upper (b.toNat % 16)

/-- The mnemonic of 30_encoding.md R64. -/
def mnemonic : Instr → String
  | .nop => "NOP"
  | .crcInit => "CRC_INIT"
  | .crcUpd _ => "CRC_UPD"
  | .crcGet => "CRC_GET"
  | .crcChk => "CRC_CHK"
  | .fsPush _ => "FS_PUSH"
  | .fsCommit => "FS_COMMIT"
  | .fsClear => "FS_CLEAR"
  | .fsStat => "FS_STAT"
  | .fsPeek _ => "FS_PEEK"

/-- The operand as 30_encoding.md R72 writes it, after a space. -/
def operandText (d : Byte) : String := " 0x" ++ hexByte true d

/-- The assembler line of a command, 30_encoding.md R72: the mnemonic, and in format B its operand. -/
def asmLine (i : Instr) : String :=
  match i with
  | .crcUpd d => mnemonic i ++ operandText d
  | .fsPush d => mnemonic i ++ operandText d
  | .fsPeek k => mnemonic i ++ operandText k
  | .nop | .crcInit | .crcGet | .crcChk | .fsCommit | .fsClear | .fsStat => mnemonic i

/-- The pseudo-instructions of 30_encoding.md R73. -/
inductive Pseudo where
  | crc16 (bs : List Byte)
  | validate (bs : List Byte)
  | ingest (bs : List Byte)
  | clear
  deriving DecidableEq, Repr

/-- The expansion of a pseudo-instruction into commands, 30_encoding.md R73. -/
def expandPseudo : Pseudo → List Instr
  | .crc16 bs => .crcInit :: bs.map .crcUpd ++ [.crcGet]
  | .validate bs => .crcInit :: bs.map .crcUpd ++ [.crcChk]
  | .ingest bs => bs.map .fsPush ++ [.fsCommit]
  | .clear => [.fsClear]

/-- The words the host presents for a pseudo-instruction. -/
def pseudoWords (p : Pseudo) : List Word := (expandPseudo p).map encode

end Sys2Proof.Machine
end

