-- ==== Sys2Proof/Machine/ResponseDecoder.lean ====
section
/-! DEFINITION. The response decoder, 45_decoder_reference.md. It is OUTSIDE the block (00_scope.md R5): no step calls it
and it touches no state (R160). It is modelled because the spec gives it in full. What the spec leaves open is the argument
`Config.DecoderParams` (log entries 9 and 10). -/

namespace Sys2Proof.Machine

/-- The function-specific payload of the result (45_decoder_reference.md R161, R166 to R171). -/
inductive Payload where
  /-- No payload: an invalid result, an exception response, or no request (R171). -/
  | absent
  /-- The requested function is not recognised (R170). -/
  | unrecognized
  /-- Coils or inputs, in order (R166). -/
  | bits (values : List Bool)
  /-- Registers, in order (R167). -/
  | registers (values : List Word)
  /-- Single write (R168). -/
  | single (address value : Word)
  /-- Multiple write (R169). -/
  | multiple (startAddress quantity : Word)
  deriving DecidableEq, Repr

/-- The decoded result, 45_decoder_reference.md R161. -/
structure DecodedResult where
  valid : Bool
  slaveAddress : Option Byte
  functionCode : Option Byte
  isError : Bool
  error : Option String
  payload : Payload
  deriving DecidableEq, Repr

/-- An invalid result: the reason and nothing else (R162, R163, R172). -/
def invalidResult (reason : String) : DecodedResult := ⟨false, none, none, false, some reason, .absent⟩

/-- A big-endian 16-bit value (R167 to R169). -/
def be16 (hi lo : Byte) : Word := hi ++ lo

/-- `ERR_TABLE` with its default, R165 and R174: the one entry the source gives, then the parameter's. -/
def errDescription (p : Config.DecoderParams) (code : Byte) : String :=
  if code = 0x83#8 then "illegal data value" else (p.errTable code).getD "unknown error"

/-- The error text of an exception response, R165. -/
def exceptionText (p : Config.DecoderParams) (code : Byte) : String :=
  "error code " ++ hexByte p.hexUpper code ++ ": " ++ errDescription p code

/-- Bits of the payload bytes, least significant first within each byte, all `byteCount * 8` of them (R166, R173). -/
def unpackBits (bs : List Byte) : List Bool := bs.flatMap fun b => (List.range 8).map b.getLsbD

/-- `count` big-endian registers from index 3 on (R167). -/
def unpackRegisters (f : List Byte) (count : Nat) : List Word :=
  (List.range count).map fun j => be16 (f.getD (3 + 2 * j) 0#8) (f.getD (4 + 2 * j) 0#8)

/-- The payload the requested function asks for, or `none` where an index it reads is at or beyond `len - 2` (R172,
failing closed). -/
def decodePayload (f : List Byte) (requested : Byte) : Option Payload :=
  let count := (f.getD 2 0#8).toNat
  let within (stop : Nat) (p : Payload) : Option Payload := if stop ≤ f.length - 2 then some p else none
  match requested.toNat with
  | 1 | 2 => within (3 + count) (.bits (unpackBits ((f.drop 3).take count)))
  | 3 | 4 => within (3 + 2 * (count / 2)) (.registers (unpackRegisters f (count / 2)))
  | 5 | 6 => within 6 (.single (be16 (f.getD 2 0#8) (f.getD 3 0#8)) (be16 (f.getD 4 0#8) (f.getD 5 0#8)))
  | 15 | 16 => within 6 (.multiple (be16 (f.getD 2 0#8) (f.getD 3 0#8)) (be16 (f.getD 4 0#8) (f.getD 5 0#8)))
  | _ => some .unrecognized

/-- The requested function code: byte 1 of a request of at least 2 bytes; a shorter one counts as absent (R166, R171). -/
def requestedFunction (request : Option (List Byte)) : Option Byte := request.bind fun r => r[1]?

/-- `decode(responseFrame, requestFrame | absent)`; the order of the tests is that of R176. -/
def decodeResponse (p : Config.DecoderParams) (response : List Byte) (request : Option (List Byte)) : DecodedResult :=
  if response.length < 5 then invalidResult "response too short"
  else if validateCRC response = false then invalidResult "CRC check failed"
  else
    let address := response.getD 0 0#8
    let function := response.getD 1 0#8
    if function.getLsbD 7 then ⟨true, some address, some function, true, some (exceptionText p function), .absent⟩
    else
      match requestedFunction request with
      | none => ⟨true, some address, some function, false, none, .absent⟩
      | some requested =>
        match decodePayload response requested with
        | some payload => ⟨true, some address, some function, false, none, payload⟩
        | none => invalidResult p.errTruncText

end Sys2Proof.Machine
end

