-- ==== Sys2Proof/Machine/Serialisation.lean ====
section
/-! DEFINITION. What 30_encoding.md R74 fixes of putting responses on wires, whatever form is chosen, as a predicate on a
form given as an argument; no step uses a form. The wire form itself is open (`RSP_SERIALISATION`, 92_eei_decisions.md D8). How
the rule's sentence is read as a predicate is the model's choice, DESIGN CHOICE (log entry 8). -/

namespace Sys2Proof.Machine

/-- A wire form over any type of wire contents: bytes, a FIFO with end marks beside the bytes, a byte-stuffed stream, anything.
The two readings belong to the form: which bytes on the wire are a CRC value, which are bytes of frames, tags, lengths, marks
and stuffing taken out. DESIGN CHOICE (log entry 8): the rule names no readings. -/
structure Serialisation (Wire : Type) where
  /-- What goes on the wire for a response. -/
  send : Rsp → Wire
  /-- The two bytes a CRC value goes as, first byte first, or `none` where this form does not send it as two bytes. -/
  crcPair : Wire → Option (Byte × Byte)
  /-- The bytes of frames on the wire, in the order they go. -/
  frameBytes : Wire → List Byte

/-- `FS_COMMIT` can emit the frame `f`: some state's `FS_COMMIT` answers `Frames` with `f` in it. -/
def FsCommitEmits (f : List Byte) : Prop :=
  ∃ s t fs dropped, exec .fsCommit s = .next t ∧ t.rsps = s.rsps ++ [.frames fs dropped] ∧ f ∈ fs

/-- 30_encoding.md R74: a CRC value that is sent as two bytes goes low byte first; the bytes of each frame go in index order,
frames in list order; and frame boundaries are preserved. DESIGN CHOICE (log entry 8): `preserved` is read as: responses with
different frames differ on the wire, over every list of frames that `FS_COMMIT` can emit and every `dropped`, the values
that the table of R70 types. -/
def SerialisationOk {Wire : Type} (form : Serialisation Wire) : Prop :=
  (∀ v lo hi, form.crcPair (form.send (.crc v)) = some (lo, hi) → [lo, hi] = toLE16 v) ∧
  (∀ fs dropped, (∀ f ∈ fs, FsCommitEmits f) → form.frameBytes (form.send (.frames fs dropped)) = fs.flatten) ∧
  (∀ fs dropped fs' dropped', (∀ f ∈ fs, FsCommitEmits f) → (∀ f ∈ fs', FsCommitEmits f) →
    form.send (.frames fs dropped) = form.send (.frames fs' dropped') → fs = fs')

/-- One form of the kind 92_eei_decisions.md D8 names, "a FIFO with end-of-frame marks": `none` is the mark, and `dropped`
follows the last one. An example of an admissible form and no part of the block; of the responses that R74 says nothing
of it sends nothing. -/
def markedFifo : Serialisation (List (Option Byte)) where
  send
    | .crc v => (toLE16 v).map some
    | .frames fs dropped => fs.flatMap (fun f => f.map some ++ [none]) ++ dropped.map some
    | .ok | .valid _ | .stat _ _ _ | .byte _ | .err _ => []
  crcPair
    | [some lo, some hi] => some (lo, hi)
    | _ => none
  frameBytes wire := (wire.reverse.dropWhile Option.isSome).reverse.filterMap id

end Sys2Proof.Machine
end

