-- ==== Sys2Proof/Safety.lean ====
section
/-! DEFINITION. What the statements about the machine are written in: the invariant of the state, the one state that counts
as gone wrong, runs over a list of command words, and what a run put in and took out of the buffer. -/

namespace Sys2Proof.Machine

/-- What holds in every reachable state: `BUF_CAP` is legal (00_scope.md R8), `len(BUF) <= BUF_CAP` (20_memory.md R56), and
`OVF` is 0 when `BUF_CAP` is unbounded (10_state.md R24). -/
def State.Inv (s : State) : Prop :=
  WellFormed.bufCap s.bufCap = true ∧ Memory.wf s.bufCap s.buf = true ∧ (s.bufCap = none → s.ovf = false)

/-- While `OVF = 0` the splitter has behaved as the source's (10_state.md R24, 60_exceptions.md R204). -/
def State.Faithful (s : State) : Prop := s.ovf = false

/-- `k` steps of the machine, on the machine's own state type. -/
def runSteps (k : Nat) (s : State) : Host.Outcome State Fault Refusal := Host.Core.run Sys2Proof.core k s

/-- `s` with exactly the words `ws` still to be presented. -/
def State.withWords (s : State) (ws : List Word) : State := { s with port := ws }

/-- The state after the word `w`; a word always has one (60_exceptions.md R190), so the second case is never taken. -/
def afterWord (s : State) (w : Word) : State :=
  match runWord w s with
  | .next t => t
  | .fault _ | .refused _ => s

/-- The state after a list of words: `step` "folded over them from the left" (20_memory.md R51). -/
def afterWords (s : State) (ws : List Word) : State := ws.foldl afterWord s

/-- The state after a list of commands. -/
def afterCommands (s : State) (is : List Instr) : State := afterWords s (is.map encode)

/-- The commands of unit C (00_scope.md R2, 30_encoding.md R64). -/
def inUnitC : Instr → Bool
  | .crcInit | .crcUpd _ | .crcGet | .crcChk => true
  | .nop | .fsPush _ | .fsCommit | .fsClear | .fsStat | .fsPeek _ => false

/-- The commands of unit S (00_scope.md R2, 30_encoding.md R64). -/
def inUnitS : Instr → Bool
  | .fsPush _ | .fsCommit | .fsClear | .fsStat | .fsPeek _ => true
  | .nop | .crcInit | .crcUpd _ | .crcGet | .crcChk => false

/-- The bytes a list of commands gives unit C by `CRC_UPD`, in order: the message `m` of 40_crc.md R99 and R109. -/
def absorbedBytes : List Instr → List Byte
  | [] => []
  | .crcUpd d :: is => d :: absorbedBytes is
  | _ :: is => absorbedBytes is

/-- The bytes one command puts into the buffer: the operand of an accepted `FS_PUSH` (41_splitter.md R131). -/
def bytesIn (s : State) : Instr → List Byte
  | .fsPush d => if s.bufCap = some s.buf.length then [] else [d]
  | _ => []

/-- The bytes one command takes out of the buffer, oldest first: emitted frames and then the discarded run, or an
`FS_CLEAR` (41_splitter.md R131). -/
def bytesOut (s : State) : Instr → List Byte
  | .fsCommit => (commit s.buf).frames.flatten ++ (commit s.buf).dropped
  | .fsClear => s.buf
  | _ => []

/-- Every byte a list of commands puts into the buffer, in order. -/
def allBytesIn (s : State) : List Instr → List Byte
  | [] => []
  | i :: is => bytesIn s i ++ allBytesIn (afterCommands s [i]) is

/-- Every byte a list of commands takes out of the buffer, in order. -/
def allBytesOut (s : State) : List Instr → List Byte
  | [] => []
  | i :: is => bytesOut s i ++ allBytesOut (afterCommands s [i]) is

end Sys2Proof.Machine
end

