-- ==== Sys2Proof/Certificates/Slice0/Obligations.lean ====
section
/-! DEFINITION. The statements for the provers. Each docstring names the rule of spec/ it formalises. Statements about the
state are about every state, with the machine's invariant as a premise where a rule speaks of reachable states only; a
statement over all states is also one over every capacity `BUF_CAP`, which is a field of the state (log entry 3). -/

open Sys2Proof Sys2Proof.Machine

/-! ### Encodings -/

/-- 30_encoding.md R75, its worked encodings, legal and illegal. -/
def Obligations.WorkedEncodingsDecode : Prop :=
  (∀ p ∈ [(0x0000#16, Instr.nop), (0x1000#16, .crcInit), (0x2083#16, .crcUpd 0x83#8), (0x3000#16, .crcGet),
      (0x4000#16, .crcChk), (0x80F1#16, .fsPush 0xF1#8), (0x9000#16, .fsCommit), (0xA000#16, .fsClear),
      (0xB000#16, .fsStat), (0xC002#16, .fsPeek 0x02#8)], decode p.1 = .ok p.2) ∧
  (∀ p ∈ [(0x0001#16, Illegal.strayOperand 0x01#8), (0x1100#16, .reservedBits 0x1#4), (0x2183#16, .reservedBits 0x1#4),
      (0x5000#16, .reservedOp 0x5#4), (0x9001#16, .strayOperand 0x01#8), (0xFFFF#16, .reservedOp 0xF#4)],
    decode p.1 = .error p.2)

/-- 30_encoding.md R68: the decoding procedure, case by case on the fields of any word, and the encoder as its inverse on
the ten commands. -/
def Obligations.DecodingProcedureAndItsInverse : Prop :=
  let reserved := [0x5#4, 0x6#4, 0x7#4, 0xD#4, 0xE#4, 0xF#4]
  let formatN := [0x0#4, 0x1#4, 0x3#4, 0x4#4, 0x9#4, 0xA#4, 0xB#4]
  (∀ w, opField w ∈ reserved → decode w = .error (.reservedOp (opField w))) ∧
  (∀ w, opField w ∉ reserved → rsvField w ≠ 0#4 → decode w = .error (.reservedBits (rsvField w))) ∧
  (∀ w, opField w ∈ formatN → rsvField w = 0#4 → dField w ≠ 0#8 → decode w = .error (.strayOperand (dField w))) ∧
  (∀ w, opField w ∉ reserved → rsvField w = 0#4 → (opField w ∈ formatN → dField w = 0#8) →
    ∃ i, decode w = .ok i ∧ opcode i = opField w ∧ operandByte i = dField w) ∧
  (∀ i, decode (encode i) = .ok i) ∧
  (∀ w i, decode w = .ok i → encode i = w)

/-- 30_encoding.md R75 ("the ten rows and their masks are a complete decoder") and the masks of R62 and R63: the opcode
table alone decides which words are commands, and no word matches two rows. -/
def Obligations.OpcodeTableIsACompleteDecoder : Prop :=
  (∀ w, (∃ i, decode w = .ok i) ↔ WellFormed.word w = true) ∧
  (∀ w r r', r ∈ opcodeTable → r' ∈ opcodeTable → r.matches w = true → r'.matches w = true → r = r')

/-- 30_encoding.md R65 and R66: a reserved operation code makes a word illegal whatever its other bits, and so do reserved
bits; such a word has no effect but the response; 24576 words have a reserved code, 775 words are legal and the other 64761
illegal. -/
def Obligations.ReservedWordsAreIllegalAndCounted : Prop :=
  let reserved := [0x5#4, 0x6#4, 0x7#4, 0xD#4, 0xE#4, 0xF#4]
  let formatN := [0x0#4, 0x1#4, 0x3#4, 0x4#4, 0x9#4, 0xA#4, 0xB#4]
  (∀ w (s : State), opField w ∈ reserved ∨ rsvField w ≠ 0#4 ∨ (opField w ∈ formatN ∧ dField w ≠ 0#8) →
    runWord w s = .next { s with rsps := s.rsps ++ [.err .illegal] }) ∧
  (∃ ws : List Word, ws.Nodup ∧ ws.length = 24576 ∧ ∀ w, w ∈ ws ↔ opField w ∈ reserved) ∧
  (∃ legal illegal : List Word, (legal ++ illegal).Nodup ∧ (∀ w, w ∈ legal ++ illegal) ∧
    legal.length = 775 ∧ illegal.length = 64761 ∧
    (∀ w ∈ legal, ∃ i, decode w = .ok i) ∧ (∀ w ∈ illegal, ∃ why, decode w = .error why))

/-! ### The step -/

/-- 00_scope.md R9: when the word the host presents next decodes to a command, the step is that command on the state without
the word; and the word `withFetchWord` presents is the one the step runs. The model's choices: the port (log entry 1), and that
a step with no word left holds the state (log entry 4, after 60_exceptions.md R201). -/
def Obligations.StepRunsTheDecodedCommand : Prop :=
  (∀ (s : State) w ws i, s.port = w :: ws → decode w = .ok i → step s = exec i { s with port := ws }) ∧
  (∀ (s : State) i, step (s.withFetchWord 16 (encode i).toNat) = exec i s) ∧
  (∀ s : State, s.port = [] → ∀ k, runSteps k s = .next s)

/-- 42_system.md R151: a word that decodes to `Illegal` gives `Err(ILLEGAL)` and changes no state; with its example. -/
def Obligations.IllegalWordAnswersIllegal : Prop :=
  (∀ s w ws why, s.port = w :: ws → decode w = .error why →
    step s = .next { s with port := ws, rsps := s.rsps ++ [.err .illegal] }) ∧
  (∀ s ws, s.port = 0x5000#16 :: ws → s.acc = 0x807E#16 →
    ∃ t, step s = .next t ∧ t.rsps = s.rsps ++ [.err .illegal] ∧ t.acc = 0x807E#16)

/-- 30_encoding.md R70: every command returns exactly one response, of the kind the table of R70 gives it. -/
def Obligations.EveryCommandReturnsOneResponse : Prop :=
  (∀ i s, ∃ t r, exec i s = .next t ∧ t.rsps = s.rsps ++ [r] ∧
    match i with
    | .nop | .crcInit | .crcUpd _ | .fsClear => r = .ok
    | .fsPush _ => r = .ok ∨ r = .err .overflow
    | .crcGet => ∃ v, r = .crc v
    | .crcChk => ∃ b, r = .valid b
    | .fsCommit => ∃ fs dropped, r = .frames fs dropped ∧ ∀ f ∈ fs, 4 ≤ f.length
    | .fsStat => ∃ len ovf cnt, r = .stat len ovf cnt
    | .fsPeek _ => (∃ v, r = .byte v) ∨ r = .err .range) ∧
  (∀ w s, (∀ i, decode w ≠ .ok i) → ∃ t, runWord w s = .next t ∧ t.rsps = s.rsps ++ [.err .illegal])

/-- 60_exceptions.md R190: no command can stop the block, so a run of any length from any state goes through; while words are
left, it takes one word a step and gives one response a word. That a step past the end of the port takes no word, gives no
response and goes on is the model's choice, DESIGN CHOICE (log entry 4). -/
def Obligations.NoCommandStopsTheBlock : Prop :=
  ∀ k (s : State), ∃ t : State, runSteps k s = .next t ∧ t.port = s.port.drop k ∧
    t.rsps.length = s.rsps.length + min k s.port.length ∧ t.bufCap = s.bufCap

/-- 20_memory.md R51: the state after commands `c1, ..., cn` is the step folded over them from the left, whatever stands
behind them in the port. -/
def Obligations.RunFoldsTheCommandsInOrder : Prop :=
  ∀ (s : State) ws later, runSteps ws.length (s.withWords (ws ++ later)) =
    .next ((afterWords (s.withWords []) ws).withWords later)

/-- 10_state.md R30: the response and the next four elements are a function of the four elements, the capacity and the command
word alone. -/
def Obligations.ResponseDependsOnTheElementsAlone : Prop :=
  ∀ w s s', s.acc = s'.acc → s.cnt = s'.cnt → s.buf = s'.buf → s.ovf = s'.ovf → s.bufCap = s'.bufCap →
    ∃ t t' r, runWord w s = .next t ∧ runWord w s' = .next t' ∧
      t.rsps = s.rsps ++ [r] ∧ t'.rsps = s'.rsps ++ [r] ∧
      t.acc = t'.acc ∧ t.cnt = t'.cnt ∧ t.buf = t'.buf ∧ t.ovf = t'.ovf

/-! ### The functions of unit C -/

/-- 40_crc.md R90: the bit step bit by bit (bit 15 is the feedback alone, since the shift is logical), and its examples. -/
def Obligations.BitStepShiftsAndFeedsBack : Prop :=
  (∀ (a : Word) k, k < 16 →
    (crcBit a).getLsbD k = ((k < 15 && a.getLsbD (k + 1)) ^^ (a.getLsbD 0 && (0xA001#16).getLsbD k))) ∧
  (∀ p ∈ [(0x0000#16, 0x0000#16), (0x0001#16, 0xA001#16), (0x0002#16, 0x0001#16), (0x0003#16, 0xA000#16),
      (0x8000#16, 0x4000#16), (0xA001#16, 0xF001#16), (0xFFFF#16, 0xDFFE#16)], crcBit p.1 = p.2)

/-- 40_crc.md R91: the byte goes into bits 7 to 0 only, then exactly eight bit steps; its values. -/
def Obligations.ByteStepIsEightBitSteps : Prop :=
  (∀ a d, crcByte a d =
    crcBit (crcBit (crcBit (crcBit (crcBit (crcBit (crcBit (crcBit (a ^^^ zext16 d))))))))) ∧
  (∀ a d, hi8 (a ^^^ zext16 d) = hi8 a ∧ lo8 (a ^^^ zext16 d) = lo8 a ^^^ d) ∧
  (∀ p ∈ [(0xFFFF#16, 0x01#8, 0x807E#16), (0x0000#16, 0x00#8, 0x0000#16), (0x0000#16, 0x01#8, 0xC0C1#16),
      (0x0001#16, 0x00#8, 0xC0C1#16), (0x0000#16, 0x80#8, 0xA001#16), (0x0100#16, 0x00#8, 0x0001#16),
      (0x8000#16, 0x00#8, 0x0080#16), (0xFFFF#16, 0x00#8, 0x40BF#16), (0xFFFF#16, 0xFF#8, 0x00FF#16),
      (0xA001#16, 0x00#8, 0xC061#16)], crcByte p.1 p.2.1 = p.2.2)

/-- 40_crc.md R92 and R93: `acc0 = 0xFFFF`, `acc(k+1) = crcByte(acc(k), bs[k])`, the result is `acc(len(bs))`; empty input
yields 0xFFFF. Stated by the sequence of accumulators. -/
def Obligations.WholeSequenceIsTheAccumulatorAsItStands : Prop :=
  (∀ (bs : List Byte) (acc : Nat → Word), acc 0 = 0xFFFF#16 →
    (∀ k (h : k < bs.length), acc (k + 1) = crcByte (acc k) bs[k]) → computeCRC16 bs = acc bs.length) ∧
  computeCRC16 [] = 0xFFFF#16

/-- 40_crc.md R96: the validator, with the received value as the number `f[n-2] + 256 * f[n-1]`, and its corner cases. -/
def Obligations.ValidatorComparesTheTrailingTwoBytes : Prop :=
  (∀ f : List Byte, f.length < 3 → validateCRC f = false) ∧
  (∀ (f : List Byte) (h : 3 ≤ f.length), validateCRC f = true ↔
    (computeCRC16 (f.take (f.length - 2))).toNat = f[f.length - 2].toNat + 256 * f[f.length - 1].toNat) ∧
  validateCRC [0x01#8, 0x7E#8, 0x80#8] = true ∧ validateCRC [] = false ∧ validateCRC [0xFF#8] = false ∧
  validateCRC [0xFF#8, 0xFF#8] = false ∧ computeCRC16 [0xFF#8, 0xFF#8] = 0x0000#16

/-- 40_crc.md R94 and 00_scope.md R10: `toLE16` gives the low byte first and `le16` is its inverse. -/
def Obligations.LowByteFirstRoundTrip : Prop :=
  (∀ w, le16 (lo8 w) (hi8 w) = w) ∧ (∀ a b, toLE16 (le16 a b) = [a, b]) ∧
  (∀ a b, (le16 a b).toNat = a.toNat + 256 * b.toNat) ∧
  (∀ b, frameOf b = b ++ [lo8 (computeCRC16 b), hi8 (computeCRC16 b)]) ∧
  frameOf [0x01#8, 0x83#8, 0x02#8] = [0x01#8, 0x83#8, 0x02#8, 0xC0#8, 0xF1#8]

/-- 30_encoding.md R60: a sequence is a frame exactly when it is a body of at least two bytes followed by the body's CRC, low
byte first. -/
def Obligations.FrameIsBodyThenItsCrc : Prop :=
  ∀ f, isFrame f = true ↔ ∃ body : List Byte, 2 ≤ body.length ∧ f = body ++ toLE16 (computeCRC16 body)

/-- 40_crc.md R102: the bit step is linear, a bijection with the inverse given there, and fixes 0; so is every power; and
the byte step is a bijection in the accumulator. -/
def Obligations.BitStepIsALinearBijection : Prop :=
  let back (r : Word) : Word :=
    ((r ^^^ (if r.getLsbD 15 then 0xA001#16 else 0#16)) <<< 1) ||| (if r.getLsbD 15 then 1#16 else 0#16)
  (∀ a b, crcBit (a ^^^ b) = crcBit a ^^^ crcBit b) ∧
  (∀ r, crcBit (back r) = r ∧ back (crcBit r) = r) ∧
  crcBit 0#16 = 0#16 ∧
  (∀ k, Function.Bijective crcBit^[k] ∧ crcBit^[k] 0#16 = 0#16 ∧
    ∀ a b, crcBit^[k] (a ^^^ b) = crcBit^[k] a ^^^ crcBit^[k] b) ∧
  (∀ d, Function.Bijective fun a => crcByte a d) ∧
  (∀ a d, crcByte a d = crcByte (a ^^^ zext16 d) 0x00#8)

/-- 40_crc.md R97: compute, append, validate; and why the empty body is left out. -/
def Obligations.AppendedCrcValidates : Prop :=
  (∀ b : List Byte, b ≠ [] → validateCRC (b ++ toLE16 (computeCRC16 b)) = true) ∧
  validateCRC ([] ++ toLE16 (computeCRC16 [])) = false

/-- 40_crc.md R98: flipping any single bit of a sequence changes its CRC. -/
def Obligations.SingleBitFlipChangesTheCrc : Prop :=
  ∀ (b : List Byte) i j (h : i < b.length), j < 8 →
    computeCRC16 (b.set i (b[i] ^^^ (1#8 <<< j))) ≠ computeCRC16 b

/-- 40_crc.md R100: the table form agrees with the byte step; the facts it gives of the table. -/
def Obligations.TableFormAgreesWithTheByteStep : Prop :=
  (∀ a d, crcByte a d = (a >>> 8) ^^^ crcTable (lo8 (a ^^^ zext16 d))) ∧
  (∀ a : Word, a >>> 8 = zext16 (hi8 a)) ∧
  crcTable 0x00#8 = 0x0000#16 ∧ crcTable 0x01#8 = 0xC0C1#16 ∧ crcTable 0xFF#8 = 0x4040#16 ∧
  Function.Injective crcTable ∧ (∀ t, hi8 (crcTable t) = 0x00#8 ↔ t = 0x00#8)

/-- 40_crc.md R101: the residue theorem and its two consequences. -/
def Obligations.ResidueDecidesValidity : Prop :=
  (∀ f, validateCRC f = true ↔ 3 ≤ f.length ∧ computeCRC16 f = 0x0000#16) ∧
  (computeCRC16 [0xFF#8, 0xFF#8] = 0x0000#16 ∧ validateCRC [0xFF#8, 0xFF#8] = false) ∧
  (∀ f n, validateCRC f = true → validateCRC (f ++ List.replicate n 0x00#8) = true)

/-! ### The commands of unit C -/

/-- 40_crc.md R105. -/
def Obligations.CrcInitStartsAMessage : Prop :=
  decode 0x1000#16 = .ok .crcInit ∧
  (∀ s, exec .crcInit s = .next { s with acc := 0xFFFF#16, cnt := 0, rsps := s.rsps ++ [.ok] }) ∧
  (∀ s t u, exec .crcInit s = .next t → exec .crcInit t = .next u → u = { t with rsps := t.rsps ++ [.ok] })

/-- 40_crc.md R106, with its corner cases and example. -/
def Obligations.CrcUpdAbsorbsOneByte : Prop :=
  (∀ d : Byte, decode (0x2000#16 + d.setWidth 16) = .ok (.crcUpd d)) ∧
  (∀ d s, exec (.crcUpd d) s = .next { s with acc := crcByte s.acc d, cnt := if s.cnt = 3 then 3 else s.cnt + 1,
                                                rsps := s.rsps ++ [.ok] }) ∧
  (∀ a, crcByte a 0x00#8 = crcBit^[8] a) ∧
  crcByte 0xFFFF#16 0x01#8 = 0x807E#16

/-- 40_crc.md R107: `CRC_GET` answers the accumulator, which is the CRC of the bytes absorbed since the last `CRC_INIT` or
reset, and changes nothing; with its example. -/
def Obligations.CrcGetAnswersTheAccumulator : Prop :=
  decode 0x3000#16 = .ok .crcGet ∧
  (∀ s, exec .crcGet s = .next { s with rsps := s.rsps ++ [.crc s.acc] }) ∧
  (∀ s cap t is, Instr.crcInit ∉ is →
    t = afterCommands s (.crcInit :: is) ∨ t = afterCommands (State.resetWith cap) is →
    exec .crcGet t = .next { t with rsps := t.rsps ++ [.crc (computeCRC16 (absorbedBytes is))] }) ∧
  computeCRC16 [] = 0xFFFF#16 ∧ computeCRC16 [0x01#8, 0x83#8, 0x02#8] = 0xF1C0#16

/-- 40_crc.md R108, with its corner cases and example. -/
def Obligations.CrcChkAnswersTheResidueTest : Prop :=
  decode 0x4000#16 = .ok .crcChk ∧
  (∀ s, exec .crcChk s = .next { s with rsps := s.rsps ++ [.valid (decide (s.cnt = 3 ∧ s.acc = 0x0000#16))] }) ∧
  (∀ s, s.cnt ≠ 3 → exec .crcChk s = .next { s with rsps := s.rsps ++ [.valid false] }) ∧
  (∀ s t, t = afterCommands s [.crcInit, .crcUpd 0x01#8, .crcUpd 0x83#8, .crcUpd 0x02#8, .crcUpd 0xC0#8, .crcUpd 0xF1#8] →
    t.acc = 0x0000#16 ∧ exec .crcChk t = .next { t with rsps := t.rsps ++ [.valid true] })

/-- 40_crc.md R99, 10_state.md R21 and R22: after the bytes `m` absorbed since the last `CRC_INIT` or reset, whatever other
commands stood between, `ACC = computeCRC16(m)` and `CNT = min(len(m), 3)`. -/
def Obligations.AccumulatorHoldsTheStreamedCrc : Prop :=
  (∀ x y : List Byte, computeCRC16 (x ++ y) = y.foldl crcByte (computeCRC16 x)) ∧
  (∀ (x : List Byte) d, computeCRC16 (x ++ [d]) = crcByte (computeCRC16 x) d) ∧
  (∀ s cap t is, Instr.crcInit ∉ is →
    t = afterCommands s (.crcInit :: is) ∨ t = afterCommands (State.resetWith cap) is →
    t.acc = computeCRC16 (absorbedBytes is) ∧ t.cnt.val = min (absorbedBytes is).length 3)

/-- 40_crc.md R109: `CRC_CHK` responds `Valid(validateCRC(m))` for the bytes `m` given by `CRC_UPD` since the last `CRC_INIT`
or reset. -/
def Obligations.CrcChkEqualsTheValidator : Prop :=
  ∀ s cap t is, Instr.crcInit ∉ is →
    t = afterCommands s (.crcInit :: is) ∨ t = afterCommands (State.resetWith cap) is →
    exec .crcChk t = .next { t with rsps := t.rsps ++ [.valid (validateCRC (absorbedBytes is))] }

/-- 40_crc.md R110: the units do not read or write each other's state; only `FS_STAT` reads `CNT`. -/
def Obligations.UnitsAreIndependent : Prop :=
  (∀ i s t, inUnitC i = true → exec i s = .next t → t.buf = s.buf ∧ t.ovf = s.ovf ∧
    ∀ m o, exec i { s with buf := m, ovf := o } = .next { t with buf := m, ovf := o }) ∧
  (∀ i s t, inUnitS i = true → exec i s = .next t → t.acc = s.acc ∧ t.cnt = s.cnt ∧
    (∀ a, exec i { s with acc := a } = .next { t with acc := a }) ∧
    (i ≠ .fsStat → ∀ c, exec i { s with cnt := c } = .next { t with cnt := c }))

/-! ### NOP -/

/-- 42_system.md R150: `NOP` changes nothing, and `0x0000` is its only word. -/
def Obligations.NopChangesNothing : Prop :=
  (∀ w, decode w = .ok .nop ↔ w = 0x0000#16) ∧
  (∀ s, exec .nop s = .next { s with rsps := s.rsps ++ [.ok] }) ∧
  (∀ w, opField w = 0x0#4 → w ≠ 0x0000#16 → ∃ why, decode w = .error why)

/-! ### The functions of unit S -/

/-- 41_splitter.md R122: the least candidate length, `none` when there is no candidate. -/
def Obligations.FindPrefixIsTheLeastCandidate : Prop :=
  (∀ b i, findPrefix b = some i ↔ 4 ≤ i ∧ i ≤ b.length ∧ validateCRC (b.take i) = true ∧
    ∀ j, 4 ≤ j → j < i → validateCRC (b.take j) = false) ∧
  (∀ b, findPrefix b = none ↔ ∀ j, 4 ≤ j → j ≤ b.length → validateCRC (b.take j) = false) ∧
  (∀ b : List Byte, b.length < 4 → findPrefix b = none)

/-- 41_splitter.md R123 and R124: the loop of `commit`, round by round, the failure policy, and at most
`len(b) / 4` successful rounds. -/
def Obligations.CommitFollowsTheExtractionLoop : Prop :=
  (∀ b : List Byte, b.length < 4 → commit b = ⟨[], [], b⟩) ∧
  (∀ b i, 4 ≤ b.length → findPrefix b = some i →
    commit b = ⟨b.take i :: (commit (b.drop i)).frames, (commit (b.drop i)).dropped, (commit (b.drop i)).rest⟩) ∧
  (∀ b : List Byte, 4 ≤ b.length → findPrefix b = none →
    commit b = ⟨[], b.take (b.length - 3), b.drop (b.length - 3)⟩ ∧
    (commit b).dropped.length = b.length - 3 ∧ (commit b).rest.length = 3) ∧
  (∀ b, (commit b).frames.length ≤ b.length / 4)

/-- 41_splitter.md R140: the one-pass scan finds the same length on every input. -/
def Obligations.OnePassScanAgrees : Prop :=
  (∀ b, findPrefixOnePass b = findPrefix b) ∧
  (∀ (b : List Byte) i, 4 ≤ i → i ≤ b.length → (validateCRC (b.take i) = true ↔ computeCRC16 (b.take i) = 0x0000#16))

/-- 41_splitter.md R142: lengths of emitted frames; a CRC-valid run of any length that no shorter one opens is a frame. -/
def Obligations.FrameLengthsAreBoundedByTheBuffer : Prop :=
  (∀ b, ∀ f ∈ (commit b).frames, 4 ≤ f.length ∧ f.length ≤ b.length) ∧
  (∀ b chunk, ∀ f ∈ (ingest (commit b).rest chunk).frames, f.length ≤ 3 + chunk.length) ∧
  (∀ f, isFrame f = true → (∀ j, 4 ≤ j → j < f.length → validateCRC (f.take j) = false) → commit f = ⟨[f], [], []⟩)

/-- 41_splitter.md R141: frames come in stream order and none is held back: what a commit leaves, dropped bytes first, opens
with no CRC-valid sequence of length at least 4. -/
def Obligations.NoFrameIsHeldBack : Prop :=
  ∀ b, b = (commit b).frames.flatten ++ ((commit b).dropped ++ (commit b).rest) ∧
    ∀ j, 4 ≤ j → j ≤ ((commit b).dropped ++ (commit b).rest).length →
      validateCRC (((commit b).dropped ++ (commit b).rest).take j) = false

/-- 41_splitter.md R134: a frame cut in two is found when the cut is at 3 or below (or at its end), and lost beyond. -/
def Obligations.SplitFrameSurvivesWithinThreeBytes : Prop :=
  ∀ (f : List Byte) k, validateCRC f = true → 4 ≤ f.length →
    (∀ j, 4 ≤ j → j < f.length → validateCRC (f.take j) = false) → k ≤ f.length →
    (k ≤ 3 → ingest [] (f.take k) = ⟨[], [], f.take k⟩ ∧ ingest (f.take k) (f.drop k) = ⟨[f], [], []⟩) ∧
    (k = f.length → ingest [] (f.take k) = ⟨[f], [], []⟩) ∧
    (4 ≤ k → k < f.length → ingest [] (f.take k) = ⟨[], f.take (k - 3), (f.take k).drop (k - 3)⟩ ∧
      (f.take k).drop (k - 3) ++ f.drop k = f.drop (k - 3) ∧
      ((∀ j, 4 ≤ j → j ≤ (f.drop (k - 3)).length → validateCRC ((f.drop (k - 3)).take j) = false) →
        (ingest ((f.take k).drop (k - 3)) (f.drop k)).frames = []))

/-- 41_splitter.md R135: two ingests equal one of the concatenation when the first drops nothing, and not in general. -/
def Obligations.IngestComposesWhereNothingIsDropped : Prop :=
  (∀ b x y, (ingest b x).dropped = [] →
    ingest b (x ++ y) = ⟨(ingest b x).frames ++ (ingest (ingest b x).rest y).frames,
      (ingest (ingest b x).rest y).dropped, (ingest (ingest b x).rest y).rest⟩) ∧
  (∃ b x y, (ingest b (x ++ y)).frames ≠ (ingest b x).frames ++ (ingest (ingest b x).rest y).frames ∧
    (ingest b (x ++ y)).rest ≠ (ingest (ingest b x).rest y).rest)

/-- 41_splitter.md R136: the shortest CRC-valid opening of length at least 4 is emitted and the rest taken as the start of
the stream, a genuine longer frame or not; its example; and a frame followed by zero bytes. -/
def Obligations.ShortestMatchIsEmittedFirst : Prop :=
  (∀ p rest : List Byte, isFrame p = true → (∀ j, 4 ≤ j → j < p.length → validateCRC (p.take j) = false) →
    commit (p ++ rest) = ⟨p :: (commit rest).frames, (commit rest).dropped, (commit rest).rest⟩) ∧
  isFrame [0x00#8, 0x00#8, 0x01#8, 0xB0#8, 0x12#8, 0x34#8, 0x0D#8, 0x77#8] = true ∧
  commit [0x00#8, 0x00#8, 0x01#8, 0xB0#8, 0x12#8, 0x34#8, 0x0D#8, 0x77#8] =
    ⟨[[0x00#8, 0x00#8, 0x01#8, 0xB0#8]], [0x12#8], [0x34#8, 0x0D#8, 0x77#8]⟩ ∧
  (∀ f n, isFrame f = true → (∀ j, 4 ≤ j → j < f.length → validateCRC (f.take j) = false) →
    validateCRC (f ++ List.replicate n 0x00#8) = true ∧
    (commit (f ++ List.replicate n 0x00#8)).frames.head? = some f)

/-! ### The commands of unit S -/

/-- 41_splitter.md R121: `FS_PUSH` appends, or on a full buffer refuses the byte and sets `OVF`; its example. -/
def Obligations.FsPushAppendsOrRefuses : Prop :=
  (∀ d : Byte, decode (0x8000#16 + d.setWidth 16) = .ok (.fsPush d)) ∧
  (∀ d s, s.bufCap ≠ some s.buf.length →
    exec (.fsPush d) s = .next { s with buf := s.buf ++ [d], rsps := s.rsps ++ [.ok] }) ∧
  (∀ d s, s.bufCap = some s.buf.length →
    exec (.fsPush d) s = .next { s with ovf := true, rsps := s.rsps ++ [.err .overflow] }) ∧
  (∀ s, s.bufCap = none → s.buf = [0x01#8, 0x03#8] → ∃ t, exec (.fsPush 0x02#8) s = .next t ∧
    t.buf = [0x01#8, 0x03#8, 0x02#8])

/-- 41_splitter.md R125: `FS_COMMIT`, with its corner case and example. -/
def Obligations.FsCommitExtractsFrames : Prop :=
  decode 0x9000#16 = .ok .fsCommit ∧
  (∀ s, exec .fsCommit s = .next { s with buf := (commit s.buf).rest,
                                          rsps := s.rsps ++ [.frames (commit s.buf).frames (commit s.buf).dropped] }) ∧
  (∀ s, s.buf.length ≤ 3 → exec .fsCommit s = .next { s with rsps := s.rsps ++ [.frames [] []] }) ∧
  commit [0x01#8, 0x03#8, 0x02#8, 0x00#8, 0x0A#8, 0x38#8, 0x43#8, 0x01#8, 0x83#8, 0x02#8, 0xC0#8, 0xF1#8, 0x01#8, 0x03#8] =
    ⟨[[0x01#8, 0x03#8, 0x02#8, 0x00#8, 0x0A#8, 0x38#8, 0x43#8], [0x01#8, 0x83#8, 0x02#8, 0xC0#8, 0xF1#8]], [],
      [0x01#8, 0x03#8]⟩

/-- 41_splitter.md R127: `FS_CLEAR` empties the buffer and touches nothing else. -/
def Obligations.FsClearEmptiesTheBuffer : Prop :=
  decode 0xA000#16 = .ok .fsClear ∧
  (∀ s, exec .fsClear s = .next { s with buf := [], rsps := s.rsps ++ [.ok] }) ∧
  (∀ s t u, exec .fsClear s = .next t → exec .fsClear t = .next u → u = { t with rsps := t.rsps ++ [.ok] })

/-- 41_splitter.md R128: `FS_STAT` answers length, `OVF` and `CNT`; its example. -/
def Obligations.FsStatAnswersTheStatusView : Prop :=
  decode 0xB000#16 = .ok .fsStat ∧
  (∀ s, exec .fsStat s = .next { s with rsps := s.rsps ++ [.stat s.buf.length s.ovf s.cnt] }) ∧
  (∀ cap, ∃ t, exec .fsStat (State.resetWith cap) = .next t ∧ t.rsps = [.stat 0 false 0])

/-- 41_splitter.md R129: `FS_PEEK` answers the byte held at its address, or `Err(RANGE)`; its example. -/
def Obligations.FsPeekReadsOneByte : Prop :=
  (∀ k : Byte, decode (0xC000#16 + k.setWidth 16) = .ok (.fsPeek k)) ∧
  (∀ (k : Byte) s (h : k.toNat < s.buf.length),
    exec (.fsPeek k) s = .next { s with rsps := s.rsps ++ [.byte s.buf[k.toNat]] }) ∧
  (∀ (k : Byte) s, s.buf.length ≤ k.toNat → exec (.fsPeek k) s = .next { s with rsps := s.rsps ++ [.err .range] }) ∧
  (∀ s, s.buf = [0x0A#8, 0x38#8, 0x43#8] →
    exec (.fsPeek 0x01#8) s = .next { s with rsps := s.rsps ++ [.byte 0x38#8] } ∧
    exec (.fsPeek 0x03#8) s = .next { s with rsps := s.rsps ++ [.err .range] })

/-- 41_splitter.md R130: every emitted frame is CRC-valid, at least 4 bytes long, and opens with no shorter valid one. -/
def Obligations.EmittedFramesAreCrcValid : Prop :=
  ∀ s t, exec .fsCommit s = .next t → ∃ fs dropped, t.rsps = s.rsps ++ [.frames fs dropped] ∧
    ∀ f ∈ fs, validateCRC f = true ∧ 4 ≤ f.length ∧ ∀ j, 4 ≤ j → j < f.length → validateCRC (f.take j) = false

/-- 41_splitter.md R131: conservation at each commit, and over any list of commands: what was held and what was put in is
what left (frames, discarded runs, clears), in order, and what is still held. -/
def Obligations.BytesAreConserved : Prop :=
  (∀ s t, exec .fsCommit s = .next t → ∃ fs dropped, t.rsps = s.rsps ++ [.frames fs dropped] ∧
    s.buf = fs.flatten ++ dropped ++ t.buf) ∧
  (∀ s is, s.buf ++ allBytesIn s is = allBytesOut s is ++ (afterCommands s is).buf)

/-- 41_splitter.md R132: after every `FS_COMMIT` at most 3 bytes are held, and exactly 3 when something was dropped. -/
def Obligations.CommitLeavesAtMostThreeBytes : Prop :=
  ∀ s t, exec .fsCommit s = .next t → t.buf.length ≤ 3 ∧
    ∀ fs dropped, t.rsps = s.rsps ++ [.frames fs dropped] → dropped ≠ [] → t.buf.length = 3

/-- 41_splitter.md R133: when the previous splitter command was `FS_COMMIT` or `FS_CLEAR`, or reset, any number of `FS_COMMIT`s
answer `Frames([], [])` and change nothing. -/
def Obligations.EmptyIngestChangesNothing : Prop :=
  ∀ s t u others n, exec .fsCommit s = .next t ∨ exec .fsClear s = .next t ∨ t = resetEvent s →
    (∀ i ∈ others, inUnitS i = false) → u = afterCommands t others →
    afterCommands u (List.replicate n .fsCommit) = { u with rsps := u.rsps ++ List.replicate n (.frames [] []) }

/-! ### Frames of the commands: what each leaves unchanged -/

/-- 20_memory.md R48: the four reads change no state and repeat their response while no writing command comes between;
`FS_CLEAR`, `CRC_INIT` and `NOP` are idempotent; a second `FS_COMMIT` finds and discards nothing and leaves the state, whatever
words but an `FS_PUSH` stand between; `FS_PUSH` and `CRC_UPD` are not idempotent. -/
def Obligations.ReadsChangeNothingAndRepeat : Prop :=
  (∀ (i : Instr) (s : State) (between : List Instr),
    i = .crcGet ∨ i = .crcChk ∨ i = .fsStat ∨ (∃ k, i = .fsPeek k) →
    (∀ j ∈ between, j = .nop ∨ j = .crcGet ∨ j = .crcChk ∨ j = .fsStat ∨ ∃ k, j = .fsPeek k) →
    ∃ r t, exec i s = .next { s with rsps := s.rsps ++ [r] } ∧ t = afterCommands s between ∧
      t.acc = s.acc ∧ t.cnt = s.cnt ∧ t.buf = s.buf ∧ t.ovf = s.ovf ∧
      exec i t = .next { t with rsps := t.rsps ++ [r] }) ∧
  (∀ (i : Instr) (s t : State), i = .fsClear ∨ i = .crcInit ∨ i = .nop → exec i s = .next t →
    exec i t = .next { t with rsps := t.rsps ++ [.ok] }) ∧
  (∀ (s t : State) (between : List Word), exec .fsCommit s = .next t → (∀ w ∈ between, ∀ d, decode w ≠ .ok (.fsPush d)) →
    ∃ u, u = afterWords t between ∧ exec .fsCommit u = .next { u with rsps := u.rsps ++ [.frames [] []] }) ∧
  (∃ d s t u, exec (.fsPush d) s = .next t ∧ exec (.fsPush d) t = .next u ∧ u.buf ≠ t.buf) ∧
  (∃ d s t u, exec (.crcUpd d) s = .next t ∧ exec (.crcUpd d) t = .next u ∧ u.acc ≠ t.acc)

/-- The frame of `NOP`, `CRC_INIT`, `CRC_UPD`, `CRC_GET`, `CRC_CHK`, `FS_STAT`, `FS_PEEK` and of an illegal word: every byte
of memory and `OVF` as before, the capacity and the port too; `ACC` and `CNT` as before but for `CRC_INIT` and `CRC_UPD`; and of
`FS_PUSH`: only the byte at address `len(BUF)` may change. -/
def Obligations.MemoryIsUntouchedElsewhere : Prop :=
  (∀ i s t, i ≠ .fsCommit → i ≠ .fsClear → (∀ d, i ≠ .fsPush d) → exec i s = .next t →
    (∀ k, Memory.read t.buf k = Memory.read s.buf k) ∧ t.ovf = s.ovf ∧ t.bufCap = s.bufCap ∧ t.port = s.port ∧
    (i ≠ .crcInit → (∀ d, i ≠ .crcUpd d) → t.acc = s.acc ∧ t.cnt = s.cnt)) ∧
  (∀ w s t, (∀ i, decode w ≠ .ok i) → runWord w s = .next t →
    (∀ k, Memory.read t.buf k = Memory.read s.buf k) ∧ t.acc = s.acc ∧ t.cnt = s.cnt ∧ t.ovf = s.ovf ∧
    t.bufCap = s.bufCap ∧ t.port = s.port) ∧
  (∀ d s t, exec (.fsPush d) s = .next t →
    (∀ k, k ≠ s.buf.length → Memory.read t.buf k = Memory.read s.buf k) ∧
    Memory.read t.buf s.buf.length = (if s.bufCap = some s.buf.length then none else some d) ∧
    t.acc = s.acc ∧ t.cnt = s.cnt ∧ t.bufCap = s.bufCap ∧ t.port = s.port)

/-- 20_memory.md R41 and the frame of `FS_COMMIT` and `FS_CLEAR`: every byte still held is the byte that stood `removed`
addresses higher, where `removed` is how many the commit took from the front; nothing else changes but the response. -/
def Obligations.AddressesMoveDownByTheBytesRemoved : Prop :=
  (∀ s t, exec .fsCommit s = .next t →
    (∀ k, Memory.read t.buf k = Memory.read s.buf (k + ((commit s.buf).frames.flatten ++ (commit s.buf).dropped).length)) ∧
    t.acc = s.acc ∧ t.cnt = s.cnt ∧ t.ovf = s.ovf ∧ t.bufCap = s.bufCap ∧ t.port = s.port) ∧
  (∀ s t, exec .fsClear s = .next t → (∀ k, Memory.read t.buf k = none) ∧
    t.acc = s.acc ∧ t.cnt = s.cnt ∧ t.ovf = s.ovf ∧ t.bufCap = s.bufCap ∧ t.port = s.port)

/-! ### Pseudo-instructions -/

/-- 30_encoding.md R73: the four pseudo-instructions, presented as words from any state, do what the source's functions do;
`INGEST` while no `FS_PUSH` is refused. -/
def Obligations.PseudoInstructionsComputeTheSourceFunctions : Prop :=
  (∀ (s : State) later bs, runSteps (pseudoWords (.crc16 bs)).length (s.withWords (pseudoWords (.crc16 bs) ++ later)) =
    .next { s with acc := computeCRC16 bs, cnt := cntOf bs.length, port := later,
                   rsps := s.rsps ++ List.replicate (bs.length + 1) .ok ++ [.crc (computeCRC16 bs)] }) ∧
  (∀ (s : State) later bs, runSteps (pseudoWords (.validate bs)).length (s.withWords (pseudoWords (.validate bs) ++ later)) =
    .next { s with acc := computeCRC16 bs, cnt := cntOf bs.length, port := later,
                   rsps := s.rsps ++ List.replicate (bs.length + 1) .ok ++ [.valid (validateCRC bs)] }) ∧
  (∀ (s : State) later bs, (∀ n, s.bufCap = some n → s.buf.length + bs.length ≤ n) →
    runSteps (pseudoWords (.ingest bs)).length (s.withWords (pseudoWords (.ingest bs) ++ later)) =
    .next { s with buf := (ingest s.buf bs).rest, port := later,
                   rsps := s.rsps ++ List.replicate bs.length .ok ++
                     [.frames (ingest s.buf bs).frames (ingest s.buf bs).dropped] }) ∧
  (∀ (s : State) later, runSteps (pseudoWords .clear).length (s.withWords (pseudoWords .clear ++ later)) =
    .next { s with buf := [], port := later, rsps := s.rsps ++ [.ok] })

/-! ### Errors, overflow, capacity -/

/-- 60_exceptions.md R191 and 30_encoding.md R71: each error code has its one cause and its one effect, and its number. -/
def Obligations.EachErrorHasOneCause : Prop :=
  (∀ w s, ∃ t r, runWord w s = .next t ∧ t.rsps = s.rsps ++ [r] ∧
    (r = .err .illegal ↔ ∃ why, decode w = .error why) ∧
    (r = .err .range ↔ ∃ k, decode w = .ok (.fsPeek k) ∧ s.buf.length ≤ k.toNat) ∧
    (r = .err .overflow ↔ ∃ d, decode w = .ok (.fsPush d) ∧ s.bufCap = some s.buf.length) ∧
    (r = .err .illegal ∨ r = .err .range → t = { s with rsps := s.rsps ++ [r] }) ∧
    (r = .err .overflow → t = { s with ovf := true, rsps := s.rsps ++ [r] })) ∧
  ErrCode.number .illegal = 1 ∧ ErrCode.number .range = 2 ∧ ErrCode.number .overflow = 3

/-- 10_state.md R24 and 60_exceptions.md R204: `OVF` is set exactly by a refused `FS_PUSH`, stays set, is never set with
`BUF_CAP` unbounded; and while it is 0 the block has behaved as the unbounded one. -/
def Obligations.OverflowMarksTheLossOfAByte : Prop :=
  (∀ i s t, exec i s = .next t →
    (t.ovf = true ↔ s.ovf = true ∨ (∃ d, i = .fsPush d) ∧ s.bufCap = some s.buf.length)) ∧
  (∀ s is, s.ovf = true → (afterCommands s is).ovf = true) ∧
  (∀ s is, s.bufCap = none → s.ovf = false → (afterCommands s is).ovf = false) ∧
  (∀ s is, (afterCommands s is).ovf = false →
    afterCommands { s with bufCap := none } is = { afterCommands s is with bufCap := none }) ∧
  (∀ s, (resetEvent s).ovf = false)

/-- 70_reset_and_hazards.md R219 and 20_memory.md R56: a chunk that fits is stored whole; of a longer one the excess bytes are
lost one `Err(OVERFLOW)` at a time and `OVF` is set. -/
def Obligations.OnlyTheExcessOfAChunkIsRefused : Prop :=
  (∀ s n (chunk : List Byte), s.bufCap = some n → s.buf.length + chunk.length ≤ n →
    afterCommands s (chunk.map .fsPush) =
      { s with buf := s.buf ++ chunk, rsps := s.rsps ++ List.replicate chunk.length .ok }) ∧
  (∀ s n (chunk : List Byte), s.bufCap = some n → s.buf.length ≤ n → n < s.buf.length + chunk.length →
    afterCommands s (chunk.map .fsPush) =
      { s with buf := s.buf ++ chunk.take (n - s.buf.length), ovf := true,
               rsps := s.rsps ++ List.replicate (n - s.buf.length) .ok ++
                 List.replicate (chunk.length - (n - s.buf.length)) (.err .overflow) })

/-! ### Reset and the invariant -/

/-- 10_state.md R32, 70_reset_and_hazards.md R210 and R211: the four elements after reset, whatever the capacity; `FS_CLEAR`
empties `BUF` and nothing else, where reset also reinitialises `ACC` and `CNT` and clears `OVF`. That `port` and `rsps` are empty
and `State.reset` unbounded is the model's choice and is not stated here (log entries 1 to 3). That `resetEvent` leaves `port`,
`rsps` and the capacity as they were, which its equations say, is the model's choice, DESIGN CHOICE (log entry 7). -/
def Obligations.ResetSetsTheFourElements : Prop :=
  (∀ cap, (State.resetWith cap).acc = 0xFFFF#16 ∧ (State.resetWith cap).cnt = 0 ∧ (State.resetWith cap).buf = [] ∧
    (State.resetWith cap).ovf = false) ∧
  (∀ s, resetEvent s = { s with acc := 0xFFFF#16, cnt := 0, buf := [], ovf := false }) ∧
  (State.reset.acc = 0xFFFF#16 ∧ State.reset.cnt = 0 ∧ State.reset.buf = [] ∧ State.reset.ovf = false) ∧
  (∀ s t, exec .fsClear s = .next t → t.buf = [] ∧ t.acc = s.acc ∧ t.cnt = s.cnt ∧ t.ovf = s.ovf ∧
    resetEvent t = { t with acc := 0xFFFF#16, cnt := 0, ovf := false }) ∧
  (∃ s t, exec .fsClear s = .next t ∧ t.acc ≠ (resetEvent s).acc ∧ t.cnt ≠ (resetEvent s).cnt ∧ t.ovf ≠ (resetEvent s).ovf)

/-- The invariant holds at reset for every legal capacity. That `State.reset` is unbounded is the model's choice (log entry
3). -/
def Obligations.ResetMeetsTheInvariant : Prop :=
  (∀ cap, WellFormed.bufCap cap = true → (State.resetWith cap).Inv) ∧ State.reset.Inv

/-- Every step keeps the invariant (10_state.md R20, R24, 20_memory.md R56): the capacity stays legal, the buffer stays within
it, and `OVF` stays 0 where there is no bound; and the capacity never changes. -/
def Obligations.StepKeepsTheInvariant : Prop :=
  ∀ s t, s.Inv → step s = .next t → t.Inv ∧ t.bufCap = s.bufCap

/-! ### Serialisation -/

/-- 30_encoding.md R74, of any wire form: one that sends the frames joined without marking their ends is not admissible, nor
one that sends a CRC value high byte first, or the bytes of a frame or the frames of a list backwards, where that is not the
same bytes; and a FIFO with end-of-frame marks is admissible, sending `Crc(0x4338)` as 38, 43. The frames are those `FS_COMMIT`
can emit. How the rule is read as the predicate `SerialisationOk` is the model's choice, DESIGN CHOICE (log entry 8). -/
def Obligations.ConcatenationLosesFrameBoundaries : Prop :=
  (∀ (Wire : Type) (form : Serialisation Wire) (wire : List Byte → Wire),
    (∀ fs dropped, form.send (.frames fs dropped) = wire (fs.flatten ++ dropped)) → ¬ SerialisationOk form) ∧
  (∀ (Wire : Type) (form : Serialisation Wire) v, form.crcPair (form.send (.crc v)) = some (hi8 v, lo8 v) → hi8 v ≠ lo8 v →
    ¬ SerialisationOk form) ∧
  (∀ (Wire : Type) (form : Serialisation Wire) f dropped, FsCommitEmits f →
    form.frameBytes (form.send (.frames [f] dropped)) = f.reverse → f.reverse ≠ f → ¬ SerialisationOk form) ∧
  (∀ (Wire : Type) (form : Serialisation Wire) f f' dropped, FsCommitEmits f → FsCommitEmits f' →
    form.frameBytes (form.send (.frames [f, f'] dropped)) = f' ++ f → f' ++ f ≠ f ++ f' → ¬ SerialisationOk form) ∧
  SerialisationOk markedFifo ∧ markedFifo.crcPair (markedFifo.send (.crc 0x4338#16)) = some (0x38#8, 0x43#8)

/-! ### The response decoder, outside the block -/

/-- 45_decoder_reference.md R162, R163 and R171: the length test comes first, then the CRC; and without a request, or with one
shorter than 2 bytes, a valid response that is no exception gives address, function and error flag only. That an invalid result
has its error flag false is the model's choice, DESIGN CHOICE (log entry 10). -/
def Obligations.DecoderTestsLengthThenCrcThenRequest : Prop :=
  (∀ p f q, f.length < 5 →
    decodeResponse p f q = ⟨false, none, none, false, some "response too short", .absent⟩) ∧
  (∀ p f q, 5 ≤ f.length → validateCRC f = false →
    decodeResponse p f q = ⟨false, none, none, false, some "CRC check failed", .absent⟩) ∧
  (∀ p (f : List Byte) q (h : 5 ≤ f.length), validateCRC f = true → f[1].getLsbD 7 = false →
    q = none ∨ (∃ r : List Byte, q = some r ∧ r.length < 2) →
    decodeResponse p f q = ⟨true, some f[0], some f[1], false, none, .absent⟩)

/-- 45_decoder_reference.md R165 with R174: an exception response, whatever the request; its example, whatever the open tables;
the description is the table's entry, looked up by the function code, or the default; and the code is written in hexadecimal,
in the letter case the parameter says. -/
def Obligations.DecoderReportsExceptionResponses : Prop :=
  let digits (upper : Bool) : List Char := ['0', '1', '2', '3', '4', '5', '6', '7', '8', '9'] ++
    (if upper then ['A', 'B', 'C', 'D', 'E', 'F'] else ['a', 'b', 'c', 'd', 'e', 'f'])
  (∀ p (f : List Byte) q (h : 5 ≤ f.length), validateCRC f = true → f[1].getLsbD 7 = true →
    decodeResponse p f q = ⟨true, some f[0], some f[1], true,
      some ("error code " ++ hexByte p.hexUpper f[1] ++ ": " ++ errDescription p f[1]), .absent⟩) ∧
  (∀ p q, decodeResponse p [0x01#8, 0x83#8, 0x02#8, 0xC0#8, 0xF1#8] q =
    ⟨true, some 0x01#8, some 0x83#8, true, some "error code 83: illegal data value", .absent⟩) ∧
  (∀ p, errDescription p 0x83#8 = "illegal data value") ∧
  (∀ p code description, code ≠ 0x83#8 → p.errTable code = some description → errDescription p code = description) ∧
  (∀ p code, code ≠ 0x83#8 → p.errTable code = none → errDescription p code = "unknown error") ∧
  (∀ upper (code : Byte), ∃ hi lo : Char, hexByte upper code = String.ofList [hi, lo] ∧
    (digits upper)[code.toNat / 16]? = some hi ∧ (digits upper)[code.toNat % 16]? = some lo)

/-- 45_decoder_reference.md R166 to R173: the payload of a CRC-valid response that is no exception, by the requested function;
failing closed where a byte to read lies in the CRC or beyond. The model's readings (log entry 10): that the truncated result has
its error flag false, DESIGN CHOICE; and that an odd register byte count does not count its last byte among those to read,
DEDUCED. -/
def Obligations.DecoderUnpacksByTheRequestedFunction : Prop :=
  ∀ p (f r : List Byte) (h : 5 ≤ f.length) (hr : 2 ≤ r.length), validateCRC f = true → f[1].getLsbD 7 = false →
    let result (x : Payload) : DecodedResult := ⟨true, some f[0], some f[1], false, none, x⟩
    let truncated : DecodedResult := ⟨false, none, none, false, some p.errTruncText, .absent⟩
    let count := f[2].toNat
    let function := r[1].toNat
    (function = 1 ∨ function = 2 →
      (f.length - 2 < 3 + count → decodeResponse p f (some r) = truncated) ∧
      (3 + count ≤ f.length - 2 → ∃ bits, decodeResponse p f (some r) = result (.bits bits) ∧ bits.length = count * 8 ∧
        ∀ j k, j < count → k < 8 → ∃ b, f[3 + j]? = some b ∧ bits[8 * j + k]? = some (b.getLsbD k))) ∧
    (function = 3 ∨ function = 4 →
      (f.length - 2 < 3 + 2 * (count / 2) → decodeResponse p f (some r) = truncated) ∧
      (3 + 2 * (count / 2) ≤ f.length - 2 → ∃ values, decodeResponse p f (some r) = result (.registers values) ∧
        values.length = count / 2 ∧
        ∀ j, j < count / 2 → ∃ hi lo v, f[3 + 2 * j]? = some hi ∧ f[4 + 2 * j]? = some lo ∧ values[j]? = some v ∧
          v.toNat = 256 * hi.toNat + lo.toNat)) ∧
    (function = 5 ∨ function = 6 →
      (f.length < 8 → decodeResponse p f (some r) = truncated) ∧
      (8 ≤ f.length → ∃ address value b2 b3 b4 b5, decodeResponse p f (some r) = result (.single address value) ∧
        f[2]? = some b2 ∧ f[3]? = some b3 ∧ f[4]? = some b4 ∧ f[5]? = some b5 ∧
        address.toNat = 256 * b2.toNat + b3.toNat ∧ value.toNat = 256 * b4.toNat + b5.toNat)) ∧
    (function = 15 ∨ function = 16 →
      (f.length < 8 → decodeResponse p f (some r) = truncated) ∧
      (8 ≤ f.length → ∃ start quantity b2 b3 b4 b5, decodeResponse p f (some r) = result (.multiple start quantity) ∧
        f[2]? = some b2 ∧ f[3]? = some b3 ∧ f[4]? = some b4 ∧ f[5]? = some b5 ∧
        start.toNat = 256 * b2.toNat + b3.toNat ∧ quantity.toNat = 256 * b4.toNat + b5.toNat)) ∧
    (function ∉ [1, 2, 3, 4, 5, 6, 15, 16] → decodeResponse p f (some r) = result .unrecognized)
end

