-- ==== Sys2Proof/Laws/State.lean ====
section
/-! SUPPORT. Every field after every update of the state, and every element after the reset event. -/

namespace Sys2Proof.Machine

@[simp] theorem State.setAcc_acc (s : State) (v : Word) : (s.setAcc v).acc = v := rfl
@[simp] theorem State.setAcc_cnt (s : State) (v : Word) : (s.setAcc v).cnt = s.cnt := rfl
@[simp] theorem State.setAcc_buf (s : State) (v : Word) : (s.setAcc v).buf = s.buf := rfl
@[simp] theorem State.setAcc_ovf (s : State) (v : Word) : (s.setAcc v).ovf = s.ovf := rfl
@[simp] theorem State.setAcc_bufCap (s : State) (v : Word) : (s.setAcc v).bufCap = s.bufCap := rfl
@[simp] theorem State.setAcc_port (s : State) (v : Word) : (s.setAcc v).port = s.port := rfl
@[simp] theorem State.setAcc_rsps (s : State) (v : Word) : (s.setAcc v).rsps = s.rsps := rfl

@[simp] theorem State.setCnt_acc (s : State) (c : Fin 4) : (s.setCnt c).acc = s.acc := rfl
@[simp] theorem State.setCnt_cnt (s : State) (c : Fin 4) : (s.setCnt c).cnt = c := rfl
@[simp] theorem State.setCnt_buf (s : State) (c : Fin 4) : (s.setCnt c).buf = s.buf := rfl
@[simp] theorem State.setCnt_ovf (s : State) (c : Fin 4) : (s.setCnt c).ovf = s.ovf := rfl
@[simp] theorem State.setCnt_bufCap (s : State) (c : Fin 4) : (s.setCnt c).bufCap = s.bufCap := rfl
@[simp] theorem State.setCnt_port (s : State) (c : Fin 4) : (s.setCnt c).port = s.port := rfl
@[simp] theorem State.setCnt_rsps (s : State) (c : Fin 4) : (s.setCnt c).rsps = s.rsps := rfl

@[simp] theorem State.setBuf_acc (s : State) (m : Memory) : (s.setBuf m).acc = s.acc := rfl
@[simp] theorem State.setBuf_cnt (s : State) (m : Memory) : (s.setBuf m).cnt = s.cnt := rfl
@[simp] theorem State.setBuf_buf (s : State) (m : Memory) : (s.setBuf m).buf = m := rfl
@[simp] theorem State.setBuf_ovf (s : State) (m : Memory) : (s.setBuf m).ovf = s.ovf := rfl
@[simp] theorem State.setBuf_bufCap (s : State) (m : Memory) : (s.setBuf m).bufCap = s.bufCap := rfl
@[simp] theorem State.setBuf_port (s : State) (m : Memory) : (s.setBuf m).port = s.port := rfl
@[simp] theorem State.setBuf_rsps (s : State) (m : Memory) : (s.setBuf m).rsps = s.rsps := rfl

@[simp] theorem State.setOvf_acc (s : State) (b : Bool) : (s.setOvf b).acc = s.acc := rfl
@[simp] theorem State.setOvf_cnt (s : State) (b : Bool) : (s.setOvf b).cnt = s.cnt := rfl
@[simp] theorem State.setOvf_buf (s : State) (b : Bool) : (s.setOvf b).buf = s.buf := rfl
@[simp] theorem State.setOvf_ovf (s : State) (b : Bool) : (s.setOvf b).ovf = b := rfl
@[simp] theorem State.setOvf_bufCap (s : State) (b : Bool) : (s.setOvf b).bufCap = s.bufCap := rfl
@[simp] theorem State.setOvf_port (s : State) (b : Bool) : (s.setOvf b).port = s.port := rfl
@[simp] theorem State.setOvf_rsps (s : State) (b : Bool) : (s.setOvf b).rsps = s.rsps := rfl

@[simp] theorem State.setPort_acc (s : State) (ws : List Word) : (s.setPort ws).acc = s.acc := rfl
@[simp] theorem State.setPort_cnt (s : State) (ws : List Word) : (s.setPort ws).cnt = s.cnt := rfl
@[simp] theorem State.setPort_buf (s : State) (ws : List Word) : (s.setPort ws).buf = s.buf := rfl
@[simp] theorem State.setPort_ovf (s : State) (ws : List Word) : (s.setPort ws).ovf = s.ovf := rfl
@[simp] theorem State.setPort_bufCap (s : State) (ws : List Word) : (s.setPort ws).bufCap = s.bufCap := rfl
@[simp] theorem State.setPort_port (s : State) (ws : List Word) : (s.setPort ws).port = ws := rfl
@[simp] theorem State.setPort_rsps (s : State) (ws : List Word) : (s.setPort ws).rsps = s.rsps := rfl

@[simp] theorem State.addRsp_acc (s : State) (r : Rsp) : (s.addRsp r).acc = s.acc := rfl
@[simp] theorem State.addRsp_cnt (s : State) (r : Rsp) : (s.addRsp r).cnt = s.cnt := rfl
@[simp] theorem State.addRsp_buf (s : State) (r : Rsp) : (s.addRsp r).buf = s.buf := rfl
@[simp] theorem State.addRsp_ovf (s : State) (r : Rsp) : (s.addRsp r).ovf = s.ovf := rfl
@[simp] theorem State.addRsp_bufCap (s : State) (r : Rsp) : (s.addRsp r).bufCap = s.bufCap := rfl
@[simp] theorem State.addRsp_port (s : State) (r : Rsp) : (s.addRsp r).port = s.port := rfl
@[simp] theorem State.addRsp_rsps (s : State) (r : Rsp) : (s.addRsp r).rsps = s.rsps ++ [r] := rfl

@[simp] theorem raiseOvf_acc (s : State) : (raiseOvf s).acc = s.acc := rfl
@[simp] theorem raiseOvf_cnt (s : State) : (raiseOvf s).cnt = s.cnt := rfl
@[simp] theorem raiseOvf_buf (s : State) : (raiseOvf s).buf = s.buf := rfl
@[simp] theorem raiseOvf_ovf (s : State) : (raiseOvf s).ovf = true := rfl
@[simp] theorem raiseOvf_bufCap (s : State) : (raiseOvf s).bufCap = s.bufCap := rfl
@[simp] theorem raiseOvf_port (s : State) : (raiseOvf s).port = s.port := rfl
@[simp] theorem raiseOvf_rsps (s : State) : (raiseOvf s).rsps = s.rsps := rfl

@[simp] theorem resetEvent_acc (s : State) : (resetEvent s).acc = 0xFFFF#16 := rfl
@[simp] theorem resetEvent_cnt (s : State) : (resetEvent s).cnt = 0 := rfl
@[simp] theorem resetEvent_buf (s : State) : (resetEvent s).buf = [] := rfl
@[simp] theorem resetEvent_ovf (s : State) : (resetEvent s).ovf = false := rfl
@[simp] theorem resetEvent_bufCap (s : State) : (resetEvent s).bufCap = s.bufCap := rfl
@[simp] theorem resetEvent_port (s : State) : (resetEvent s).port = s.port := rfl
@[simp] theorem resetEvent_rsps (s : State) : (resetEvent s).rsps = s.rsps := rfl

end Sys2Proof.Machine
end

