-- ==== Sys2Proof/Laws/Ops.lean ====
section
/-! SUPPORT. What each shared operation can do, said once: responses, the command port, the buffer as memory, the counter. -/

namespace Sys2Proof.Machine

/-! ### Responses -/

theorem respond_eq_next {r : Rsp} {s t : State} : respond r s = .next t ↔ t = s.addRsp r := by
  simp [respond, eq_comm]

theorem respondErr_eq_next {code : ErrCode} {s t : State} :
    respondErr code s = .next t ↔ t = s.addRsp (.err code) := respond_eq_next

/-! ### The command port -/

theorem takeWord_none {s : State} : takeWord s = none ↔ s.port = [] := by
  cases h : s.port <;> simp [takeWord, h]

theorem takeWord_some {s s' : State} {w : Word} :
    takeWord s = some (w, s') ↔ ∃ ws, s.port = w :: ws ∧ s' = s.setPort ws := by
  cases h : s.port with
  | nil => simp [takeWord, h]
  | cons v ws =>
    simp only [takeWord, h, Option.some.injEq, Prod.mk.injEq, List.cons.injEq]
    constructor
    · rintro ⟨rfl, rfl⟩
      exact ⟨ws, ⟨rfl, rfl⟩, rfl⟩
    · rintro ⟨ws', ⟨rfl, rfl⟩, rfl⟩
      exact ⟨rfl, rfl⟩

theorem takeWord_presentWord (s : State) (w : Word) : takeWord (presentWord s w) = some (w, s) := rfl

/-- A presented word is the one the step runs, and nothing else of the state has changed. -/
theorem step_presentWord (s : State) (w : Word) : step (presentWord s w) = runWord w s := rfl

/-! ### The buffer as memory -/

theorem Memory.read_isSome_iff (m : Memory) (k : Nat) : (Memory.read m k).isSome = true ↔ k < m.length := by
  simp [Memory.read]

theorem Memory.read_append_last (m : Memory) (d : Byte) : Memory.read (Memory.append m d) m.length = some d := by
  simp [Memory.read, Memory.append]

theorem Memory.read_append_other (m : Memory) (d : Byte) {k : Nat} (h : k ≠ m.length) :
    Memory.read (Memory.append m d) k = Memory.read m k := by
  unfold Memory.read Memory.append
  rcases Nat.lt_or_gt_of_ne h with hk | hk
  · exact List.getElem?_append_left hk
  · rw [List.getElem?_eq_none (by simp; omega), List.getElem?_eq_none (by omega)]

theorem Memory.read_removeFront (m : Memory) (i k : Nat) :
    Memory.read (Memory.removeFront m i) k = Memory.read m (i + k) := by
  simp [Memory.read, Memory.removeFront]

theorem Memory.read_clear (m : Memory) (k : Nat) : Memory.read (Memory.clear m) k = none := by
  simp [Memory.read, Memory.clear]

theorem Memory.isFull_iff (cap : Config.BufCap) (m : Memory) :
    Memory.isFull cap m = true ↔ cap = some m.length := by
  simp [Memory.isFull]

theorem Memory.wf_iff (cap : Config.BufCap) (m : Memory) :
    Memory.wf cap m = true ↔ ∀ n, cap = some n → m.length ≤ n := by
  cases cap <;> simp [Memory.wf]

/-- A byte is appended only where the buffer is not full, and then it still fits. -/
theorem Memory.wf_append {cap : Config.BufCap} {m : Memory} (d : Byte) (h : Memory.wf cap m = true)
    (hfull : Memory.isFull cap m = false) : Memory.wf cap (Memory.append m d) = true := by
  cases cap with
  | none => rfl
  | some n =>
    simp [Memory.wf, Memory.append, Memory.isFull] at *
    omega

theorem Memory.wf_removeFront {cap : Config.BufCap} {m : Memory} (i : Nat) (h : Memory.wf cap m = true) :
    Memory.wf cap (Memory.removeFront m i) = true := by
  cases cap with
  | none => rfl
  | some n =>
    simp [Memory.wf, Memory.removeFront] at *
    omega

theorem Memory.wf_clear (cap : Config.BufCap) (m : Memory) : Memory.wf cap (Memory.clear m) = true := by
  cases cap <;> simp [Memory.wf, Memory.clear]

theorem Memory.wf_resetWith (cap : Config.BufCap) : Memory.wf cap (State.resetWith cap).buf = true := by
  cases cap <;> simp [Memory.wf, State.resetWith]

/-- The cells of a buffer hold exactly what reading it gives. -/
theorem Memory.mem_cells_iff (m : Memory) (k : Nat) (b : Byte) :
    (k, b) ∈ Memory.cells m ↔ Memory.read m k = some b := by
  simp [Memory.cells, Memory.read, List.mem_zipIdx_iff_getElem?]

/-- The addresses of the cells rise strictly: the cells are in canonical form. -/
theorem Memory.cells_rising (m : Memory) : (Memory.cells m).Pairwise fun a b => a.1 < b.1 := by
  have h : (Memory.cells m).map Prod.fst = List.range m.length := by
    simp [Memory.cells, List.map_map, Function.comp_def, List.zipIdx_map_snd, List.range_eq_range']
  have hlt : ((Memory.cells m).map Prod.fst).Pairwise (· < ·) := h ▸ List.pairwise_lt_range
  exact (List.pairwise_map.mp hlt)

/-! ### The counter -/

theorem cntSucc_val (c : Fin 4) : (cntSucc c).val = min (c.val + 1) 3 := rfl

theorem cntOf_val (n : Nat) : (cntOf n).val = min n 3 := rfl

/-- One byte more: the counter of a message of `n` bytes becomes that of `n + 1` bytes. -/
theorem cntSucc_cntOf (n : Nat) : cntSucc (cntOf n) = cntOf (n + 1) := by
  apply Fin.ext
  simp only [cntSucc_val, cntOf_val]
  omega

end Sys2Proof.Machine
end

