-- ==== Sys2Proof/Laws/Exec.lean ====
section
/-! SUPPORT. The next state of every command in the model's own updates, so that a later proof cites an equation instead of
unfolding a meaning. -/

namespace Sys2Proof.Machine

theorem exec_nop (s : State) : exec .nop s = .next (s.addRsp .ok) := rfl

theorem exec_crcInit (s : State) : exec .crcInit s = .next (((s.setAcc 0xFFFF#16).setCnt 0).addRsp .ok) := rfl

theorem exec_crcUpd (d : Byte) (s : State) :
    exec (.crcUpd d) s = .next (((s.setAcc (crcByte s.acc d)).setCnt (cntSucc s.cnt)).addRsp .ok) := rfl

theorem exec_crcGet (s : State) : exec .crcGet s = .next (s.addRsp (.crc s.acc)) := rfl

theorem exec_crcChk (s : State) : exec .crcChk s = .next (s.addRsp (.valid (s.cnt == 3 && s.acc == 0#16))) := rfl

theorem exec_fsPush_room (d : Byte) {s : State} (h : s.bufCap ≠ some s.buf.length) :
    exec (.fsPush d) s = .next ((s.setBuf (s.buf ++ [d])).addRsp .ok) := by
  have hf : Memory.isFull s.bufCap s.buf = false := by simpa [Memory.isFull] using h
  simp [exec, execFsPush, hf, respond, Memory.append, dataOperand]

theorem exec_fsPush_full (d : Byte) {s : State} (h : s.bufCap = some s.buf.length) :
    exec (.fsPush d) s = .next ((raiseOvf s).addRsp (.err .overflow)) := by
  have hf : Memory.isFull s.bufCap s.buf = true := by simp [Memory.isFull, h]
  simp [exec, execFsPush, hf, respondErr, respond]

theorem exec_fsCommit (s : State) : exec .fsCommit s =
    .next ((s.setBuf (commit s.buf).rest).addRsp (.frames (commit s.buf).frames (commit s.buf).dropped)) := rfl

theorem exec_fsClear (s : State) : exec .fsClear s = .next ((s.setBuf []).addRsp .ok) := rfl

theorem exec_fsStat (s : State) : exec .fsStat s = .next (s.addRsp (.stat s.buf.length s.ovf s.cnt)) := rfl

theorem exec_fsPeek_held {k : Byte} {s : State} (h : k.toNat < s.buf.length) :
    exec (.fsPeek k) s = .next (s.addRsp (.byte s.buf[k.toNat])) := by
  simp [exec, execFsPeek, Memory.read, addressOperand, respond, h]

theorem exec_fsPeek_beyond {k : Byte} {s : State} (h : s.buf.length ≤ k.toNat) :
    exec (.fsPeek k) s = .next (s.addRsp (.err .range)) := by
  have hn : s.buf[k.toNat]? = none := List.getElem?_eq_none h
  simp [exec, execFsPeek, Memory.read, addressOperand, respondErr, respond, hn]

/-- The two things a word can do: run its command, or be answered as illegal. -/
theorem runWord_cases (w : Word) (s : State) :
    (∃ i, decode w = .ok i ∧ runWord w s = exec i s) ∨
    (∃ why, decode w = .error why ∧ runWord w s = .next (s.addRsp (.err .illegal))) := by
  unfold runWord
  cases h : decode w with
  | ok i => exact .inl ⟨i, rfl, rfl⟩
  | error why => exact .inr ⟨why, rfl, rfl⟩

/-- The two things a step can do: perform the word at the head of the port, or hold the state. -/
theorem step_cases (s : State) :
    (∃ w ws, s.port = w :: ws ∧ step s = runWord w (s.setPort ws)) ∨ (s.port = [] ∧ step s = .next s) := by
  unfold step takeWord
  cases h : s.port with
  | nil => exact .inr ⟨rfl, rfl⟩
  | cons w ws => exact .inl ⟨w, ws, rfl, rfl⟩

end Sys2Proof.Machine
end

