-- ==== Sys2Proof/Laws/PerInstr.lean ====
section
/-! SUPPORT. The fields of every command's word (30_encoding.md R61 to R63): `op` is the command's operation code, `rsv` is
zero, `d` is the operand in format B and zero in format N. One lemma per constructor. -/

namespace Sys2Proof.Laws.EncodedFields

/-- What 30_encoding.md R61 to R63 say of a command's word. -/
def Statement (i : Instr) : Prop :=
  opField (encode i) = opcode i ∧ rsvField (encode i) = 0#4 ∧ dField (encode i) = operandByte i

theorem opField_wordOf (op : BitVec 4) (d : Byte) : opField (wordOf op d) = op := by
  ext k hk
  simp only [opField, wordOf, BitVec.getElem_extractLsb', BitVec.getLsbD_or, BitVec.getLsbD_shiftLeft,
    BitVec.getLsbD_setWidth, Nat.add_sub_cancel_left, BitVec.getLsbD_of_ge d (12 + k) (by omega),
    BitVec.getLsbD_eq_getElem hk]
  simp [show 12 + k < 16 by omega, show k < 16 by omega]

theorem rsvField_wordOf (op : BitVec 4) (d : Byte) : rsvField (wordOf op d) = 0#4 := by
  ext k hk
  simp [rsvField, wordOf]
  omega

theorem dField_wordOf (op : BitVec 4) (d : Byte) : dField (wordOf op d) = d := by
  ext k hk
  simp [dField, wordOf, show k < 16 by omega, show k < 12 by omega, BitVec.getLsbD_eq_getElem hk]

/-- A word put together from its fields has them. -/
theorem of_parts (i : Instr) : Statement i :=
  ⟨opField_wordOf _ _, rsvField_wordOf _ _, dField_wordOf _ _⟩

theorem nop : Statement .nop := of_parts _

theorem crcInit : Statement .crcInit := of_parts _

theorem crcUpd (d : Byte) : Statement (.crcUpd d) := of_parts _

theorem crcGet : Statement .crcGet := of_parts _

theorem crcChk : Statement .crcChk := of_parts _

theorem fsPush (d : Byte) : Statement (.fsPush d) := of_parts _

theorem fsCommit : Statement .fsCommit := of_parts _

theorem fsClear : Statement .fsClear := of_parts _

theorem fsStat : Statement .fsStat := of_parts _

theorem fsPeek (k : Byte) : Statement (.fsPeek k) := of_parts _

end Sys2Proof.Laws.EncodedFields
end

