-- ==== Sys2Proof/Laws/Run.lean ====
section
/-! SUPPORT. How a run and a list of words unfold, one at a time. -/

namespace Sys2Proof.Machine

@[simp] theorem runSteps_zero (s : State) : runSteps 0 s = .next s := rfl

theorem runSteps_succ {k : Nat} {s t : State} (h : step s = .next t) : runSteps (k + 1) s = runSteps k t := by
  simp only [runSteps, Host.Core.run, core]
  rw [h]

@[simp] theorem afterWords_nil (s : State) : afterWords s [] = s := rfl

@[simp] theorem afterWords_cons (s : State) (w : Word) (ws : List Word) :
    afterWords s (w :: ws) = afterWords (afterWord s w) ws := rfl

theorem afterWords_append (s : State) (ws vs : List Word) :
    afterWords s (ws ++ vs) = afterWords (afterWords s ws) vs := List.foldl_append

@[simp] theorem afterCommands_nil (s : State) : afterCommands s [] = s := rfl

theorem afterCommands_append (s : State) (is js : List Instr) :
    afterCommands s (is ++ js) = afterCommands (afterCommands s is) js := by
  simp only [afterCommands, List.map_append, afterWords_append]

theorem afterWord_of_next {s t : State} {w : Word} (h : runWord w s = .next t) : afterWord s w = t := by
  simp [afterWord, h]

end Sys2Proof.Machine
end

