-- ==== Sys2Proof/Laws/Splitter.lean ====
section
/-! SUPPORT. The small facts about the splitter's functions: what a found length satisfies, and that the bound on the rounds
of `commitLoop` never ends it. -/

namespace Sys2Proof.Machine

/-- A found length lies between `MINLEN` and the buffer's length, and the bytes up to it validate. -/
theorem findPrefix_some {b : List Byte} {i : Nat} (h : findPrefix b = some i) :
    4 ≤ i ∧ i ≤ b.length ∧ validateCRC (b.take i) = true := by
  unfold findPrefix at h
  have hmem := List.mem_of_find?_eq_some h
  have hp := List.find?_some h
  simp only [Config.minLen, List.mem_range'_1] at hmem
  exact ⟨hmem.1, by omega, hp⟩

theorem commitLoop_short {b : List Byte} (fuel : Nat) (h : b.length < 4) : commitLoop fuel b = ⟨[], [], b⟩ := by
  cases fuel with
  | zero => rfl
  | succ n => simp [commitLoop, h]

/-- Any bound of at least `len(b)` rounds gives the same result. -/
theorem commitLoop_fuel (n m : Nat) (b : List Byte) (hn : b.length ≤ n) (hm : b.length ≤ m) :
    commitLoop n b = commitLoop m b := by
  induction n generalizing m b with
  | zero => rw [commitLoop_short _ (by omega), commitLoop_short _ (by omega)]
  | succ n ih =>
    cases m with
    | zero => rw [commitLoop_short _ (by omega), commitLoop_short _ (by omega)]
    | succ m =>
      rw [commitLoop, commitLoop]
      split
      · rfl
      · cases hp : findPrefix b with
        | none => rfl
        | some i =>
          have hi := findPrefix_some hp
          have hlen : (b.drop i).length ≤ b.length - 4 := by rw [List.length_drop]; omega
          simp only [ih m (b.drop i) (by omega) (by omega)]

/-- A found length depends on nothing behind it. -/
theorem findPrefix_take_append {b : List Byte} {i : Nat} (h : findPrefix b = some i) (q : List Byte) :
    findPrefix (b.take i ++ q) = some i := by
  have hb := findPrefix_some h
  have hl : (b.take i).length = i := by rw [List.length_take]; omega
  have hlt : ∀ j, 4 ≤ j → j < i → validateCRC (b.take j) = false := by
    intro j h4 hj
    have := (List.find?_range'_eq_some.mp h).2.2 j h4 hj
    simpa using this
  refine List.find?_range'_eq_some.mpr ⟨?_, ?_, fun j h4 hj => ?_⟩
  · simpa [List.take_left' hl] using hb.2.2
  · simp only [Config.minLen, List.mem_range'_1, List.length_append]
    omega
  · rw [List.take_append_of_le_length (by omega), List.take_take, min_eq_left (by omega), hlt j h4 hj]
    rfl

/-- Where nothing is found, nothing is found in an opening of it either. -/
theorem findPrefix_take_none {b : List Byte} (h : findPrefix b = none) (k : Nat) : findPrefix (b.take k) = none := by
  simp only [findPrefix, List.find?_eq_none, Config.minLen, List.mem_range'_1, List.length_take, List.take_take] at h ⊢
  intro j hj
  rw [min_eq_left (by omega)]
  exact h j (by omega)

/-- What leaves the buffer in one commit, run through the loop again, gives the same frames: so the frame boundaries of a whole
response of `FS_COMMIT` could be computed from its bytes, at the price of doing the splitter's work (log entry 8). -/
theorem commitLoop_again (n : Nat) (b : List Byte) (m : Nat)
    (hm : ((commitLoop n b).frames.flatten ++ (commitLoop n b).dropped).length ≤ m) :
    (commitLoop m ((commitLoop n b).frames.flatten ++ (commitLoop n b).dropped)).frames = (commitLoop n b).frames := by
  induction n generalizing b m with
  | zero => simp only [commitLoop, List.flatten_nil, List.nil_append, commitLoop_short m (b := []) (by simp)]
  | succ n ih =>
    by_cases hs : b.length < 4
    · simp only [commitLoop_short _ hs, List.flatten_nil, List.nil_append, commitLoop_short m (b := []) (by simp)]
    · cases hp : findPrefix b with
      | none =>
        simp only [commitLoop, Config.minLen, hs, if_false, hp, List.flatten_nil, List.nil_append]
        cases m with
        | zero => rfl
        | succ m =>
          rw [commitLoop, findPrefix_take_none hp]
          split <;> rfl
      | some i =>
        have hi := findPrefix_some hp
        have hl : (b.take i).length = i := by rw [List.length_take]; omega
        simp only [commitLoop, Config.minLen, hs, if_false, hp, List.flatten_cons, List.append_assoc] at hm ⊢
        cases m with
        | zero => simp only [List.length_append, hl] at hm; omega
        | succ m =>
          rw [commitLoop, findPrefix_take_append hp, if_neg (by simp only [Config.minLen, List.length_append, hl]; omega)]
          simp only [List.take_left' hl, List.drop_left' hl]
          rw [ih (b.drop i) m (by simp only [List.length_append, hl] at hm ⊢; omega)]

end Sys2Proof.Machine
end

