-- ==== Sys2Proof/Tests/Slice0.lean ====
section
/-! SUPPORT. Tests. Every expected value stands in spec/, mostly in 95_test_vectors.md; none was read off the model. Then, for
each statement of Certificates/Slice0/Obligations.lean that has hypotheses, a concrete case that meets them. -/

namespace Sys2Proof.Tests

open Sys2Proof.Machine

/-- A state with the given elements, nothing presented and nothing answered. -/
def blockState (acc : Word) (cnt : Fin 4) (buf : List Byte) (ovf : Bool) (cap : Config.BufCap) : State :=
  ⟨acc, cnt, buf, ovf, cap, [], []⟩

/-- What one step does to a state when `w` is presented. -/
def stepWord (s : State) (w : Word) : Option State :=
  match step (presentWord s w) with
  | .next t => some t
  | .fault _ | .refused _ => none

/-- The source's exception frame, 95_test_vectors.md S6. -/
def frameS6 : List Byte := [0x01#8, 0x83#8, 0x02#8, 0xC0#8, 0xF1#8]

/-- The source's register frame as corrected, 95_test_vectors.md S5. -/
def frameS5 : List Byte := [0x01#8, 0x03#8, 0x02#8, 0x00#8, 0x0A#8, 0x38#8, 0x43#8]

/-! ### Ill-formed terms are refused -/

theorem test_reserved_op_is_ill_formed : WellFormed.word 0x5000#16 = false := by decide

theorem test_reserved_bits_are_ill_formed : WellFormed.word 0x2183#16 = false := by decide

theorem test_stray_operand_is_ill_formed : WellFormed.word 0x9001#16 = false := by decide

theorem test_capacity_three_is_ill_formed : WellFormed.bufCap (some 3) = false := by decide

theorem test_overfull_memory_is_ill_formed :
    Memory.wf (some 4) [0x01#8, 0x02#8, 0x03#8, 0x04#8, 0x05#8] = false := by decide

/-- 40_crc.md R96: three bytes may validate, but 30_encoding.md R60 wants four. -/
theorem test_three_bytes_are_no_frame : isFrame [0x01#8, 0x7E#8, 0x80#8] = false := by decide

/-! ### Words written out from 30_encoding.md R61 to R64: op, rsv, d -/

theorem test_decode_nop : decode 0b0000000000000000#16 = .ok .nop := by decide

theorem test_decode_crcInit : decode 0b0001000000000000#16 = .ok .crcInit := by decide

theorem test_decode_crcUpd : decode 0b0010000010000011#16 = .ok (.crcUpd 0x83#8) := by decide

theorem test_decode_crcGet : decode 0b0011000000000000#16 = .ok .crcGet := by decide

theorem test_decode_crcChk : decode 0b0100000000000000#16 = .ok .crcChk := by decide

theorem test_decode_fsPush : decode 0b1000000011110001#16 = .ok (.fsPush 0xF1#8) := by decide

theorem test_decode_fsCommit : decode 0b1001000000000000#16 = .ok .fsCommit := by decide

theorem test_decode_fsClear : decode 0b1010000000000000#16 = .ok .fsClear := by decide

theorem test_decode_fsStat : decode 0b1011000000000000#16 = .ok .fsStat := by decide

theorem test_decode_fsPeek : decode 0b1100000000000010#16 = .ok (.fsPeek 0x02#8) := by decide

theorem test_decode_illegal :
    [0x00FF#16, 0x0100#16, 0x4F00#16, 0x7FFF#16, 0x8100#16, 0xC100#16, 0xD000#16, 0xFFFF#16].all
      (fun w => (decode w).toOption == none) = true := by decide

theorem test_encode_crcUpd : encode (.crcUpd 0x83#8) = 0x2083#16 := by decide

theorem test_decodeTableWord : decodeTableWord 16 0xC002 = some (.fsPeek 0x02#8) := by decide

/-- 30_encoding.md R72. -/
theorem test_asm_lines : asmLine (.fsPush 0x0A#8) = "FS_PUSH 0x0A" ∧ asmLine .crcGet = "CRC_GET" := by decide

/-! ### The functions: 95_test_vectors.md sections 2.1 to 2.7 -/

theorem test_crcBit_feedback : crcBit 0x8001#16 = 0xE001#16 ∧ crcBit 0xAAAA#16 = 0x5555#16 := by decide

theorem test_crcByte_zero_data : crcByte 0xFFFF#16 0x00#8 = 0x40BF#16 := by decide +kernel

theorem test_crcTable_first_row : [0, 1, 2, 3, 4, 5, 6, 7].map (fun t => crcTable (BitVec.ofNat 8 t)) =
    [0x0000#16, 0xC0C1#16, 0xC181#16, 0x0140#16, 0xC301#16, 0x03C0#16, 0x0280#16, 0xC241#16] := by decide +kernel

theorem test_check_value : computeCRC16 [0x31#8, 0x32#8, 0x33#8, 0x34#8, 0x35#8, 0x36#8, 0x37#8, 0x38#8, 0x39#8] =
    0x4B37#16 := by decide +kernel

theorem test_validate_swapped_crc : validateCRC [0x01#8, 0x83#8, 0x02#8, 0xF1#8, 0xC0#8] = false := by decide +kernel

theorem test_validate_source_literal_as_printed :
    validateCRC [0x01#8, 0x03#8, 0x02#8, 0x00#8, 0x0A#8, 0xC5#8, 0xCD#8] = false := by decide +kernel

/-- Scenario H. -/
theorem test_garbage_before_a_frame : ingest [] ([0xFF#8, 0xFF#8, 0xFF#8, 0xFF#8] ++ frameS6) =
    ⟨[], [0xFF#8, 0xFF#8, 0xFF#8, 0xFF#8, 0x01#8, 0x83#8], [0x02#8, 0xC0#8, 0xF1#8]⟩ := by decide +kernel

/-- Scenario O: the kept tail opens the next frame. -/
theorem test_tail_recovers_a_frame : ingest [] [0xAA#8, 0xBB#8, 0xCC#8, 0xDD#8, 0x01#8, 0x83#8, 0x02#8] =
      ⟨[], [0xAA#8, 0xBB#8, 0xCC#8, 0xDD#8], [0x01#8, 0x83#8, 0x02#8]⟩ ∧
    ingest [0x01#8, 0x83#8, 0x02#8] [0xC0#8, 0xF1#8] = ⟨[frameS6], [], []⟩ := by decide +kernel

/-- Scenario P, third line: desynchronisation persists. -/
theorem test_desynchronisation_persists : ingest [0x02#8, 0xC0#8, 0xF1#8] frameS6 =
    ⟨[], [0x02#8, 0xC0#8, 0xF1#8, 0x01#8, 0x83#8], [0x02#8, 0xC0#8, 0xF1#8]⟩ := by decide +kernel

/-! ### One step of each command: 95_test_vectors.md sections 2.6, 2.8 and 3 -/

theorem test_nop : (stepWord (blockState 0x807E#16 1 [0x34#8] true none) 0x0000#16) =
    some { blockState 0x807E#16 1 [0x34#8] true none with rsps := [.ok] } := by decide

theorem test_crcInit : (stepWord (blockState 0x1234#16 3 [0x34#8] true none) 0x1000#16) =
    some { blockState 0xFFFF#16 0 [0x34#8] true none with rsps := [.ok] } := by decide

/-- P2, step 3. -/
theorem test_crcUpd : (stepWord (blockState 0x8141#16 2 [] false none) 0x2002#16) =
    some { blockState 0xF1C0#16 3 [] false none with rsps := [.ok] } := by decide +kernel

/-- The counter stays at 3. -/
theorem test_crcUpd_saturates : (stepWord (blockState 0x0000#16 3 [] false none) 0x2000#16) =
    some { blockState 0x0000#16 3 [] false none with rsps := [.ok] } := by decide +kernel

theorem test_crcGet : (stepWord (blockState 0x0A84#16 3 [] false none) 0x3000#16) =
    some { blockState 0x0A84#16 3 [] false none with rsps := [.crc 0x0A84#16] } := by decide

theorem test_crcChk : (stepWord (blockState 0x0000#16 3 [] false none) 0x4000#16) =
    some { blockState 0x0000#16 3 [] false none with rsps := [.valid true] } := by decide

theorem test_crcChk_two_bytes : (stepWord (blockState 0x0000#16 2 [] false none) 0x4000#16) =
    some { blockState 0x0000#16 2 [] false none with rsps := [.valid false] } := by decide

/-- P3, step 5. -/
theorem test_fsPush : (stepWord (blockState 0xFFFF#16 0 [0x01#8, 0x03#8] false none) 0x8002#16) =
    some { blockState 0xFFFF#16 0 [0x01#8, 0x03#8, 0x02#8] false none with rsps := [.ok] } := by decide

/-- P6, step 5. -/
theorem test_fsPush_full : (stepWord (blockState 0xFFFF#16 0 [0x01#8, 0x02#8, 0x81#8, 0xE1#8] false (some 4)) 0x8099#16) =
    some { blockState 0xFFFF#16 0 [0x01#8, 0x02#8, 0x81#8, 0xE1#8] true (some 4) with rsps := [.err .overflow] } := by
  decide

/-- P6, step 7: `OVF` stays set. -/
theorem test_fsCommit : (stepWord (blockState 0xFFFF#16 0 [0x01#8, 0x02#8, 0x81#8, 0xE1#8] true (some 4)) 0x9000#16) =
    some { blockState 0xFFFF#16 0 [] true (some 4) with rsps := [.frames [[0x01#8, 0x02#8, 0x81#8, 0xE1#8]] []] } := by
  decide +kernel

/-- P8, step 11: the shortest match cuts a genuine frame; unit C is not disturbed. -/
theorem test_fsCommit_shortest_match :
    (stepWord (blockState 0x807E#16 1 [0x00#8, 0x00#8, 0x01#8, 0xB0#8, 0x12#8, 0x34#8, 0x0D#8, 0x77#8] false none) 0x9000#16) =
    some { blockState 0x807E#16 1 [0x34#8, 0x0D#8, 0x77#8] false none with
             rsps := [.frames [[0x00#8, 0x00#8, 0x01#8, 0xB0#8]] [0x12#8]] } := by decide +kernel

theorem test_fsClear : (stepWord (blockState 0xFFFF#16 0 [0x02#8, 0xC0#8, 0xF1#8] true none) 0xA000#16) =
    some { blockState 0xFFFF#16 0 [] true none with rsps := [.ok] } := by decide

/-- P8, step 17. -/
theorem test_fsStat : (stepWord (blockState 0x807E#16 1 [0x34#8, 0x0D#8, 0x77#8] false none) 0xB000#16) =
    some { blockState 0x807E#16 1 [0x34#8, 0x0D#8, 0x77#8] false none with rsps := [.stat 3 false 1] } := by decide

theorem test_fsPeek : (stepWord (blockState 0xFFFF#16 0 [0x0A#8, 0x38#8, 0x43#8] false none) 0xC002#16) =
    some { blockState 0xFFFF#16 0 [0x0A#8, 0x38#8, 0x43#8] false none with rsps := [.byte 0x43#8] } := by decide

theorem test_fsPeek_beyond : (stepWord (blockState 0xFFFF#16 0 [0x0A#8, 0x38#8, 0x43#8] false none) 0xC003#16) =
    some { blockState 0xFFFF#16 0 [0x0A#8, 0x38#8, 0x43#8] false none with rsps := [.err .range] } := by decide

theorem test_illegal_word : (stepWord (blockState 0x807E#16 1 [0x34#8] true none) 0x5000#16) =
    some { blockState 0x807E#16 1 [0x34#8] true none with rsps := [.err .illegal] } := by decide

/-- 30_encoding.md R73, first line of its last paragraph. -/
theorem test_pseudo_words : pseudoWords (.crc16 []) = [0x1000#16, 0x3000#16] ∧
    pseudoWords (.ingest [0x01#8]) = [0x8001#16, 0x9000#16] := by decide

/-! ### The response decoder: 45_decoder_reference.md R177 and R178 -/

/-- Any open tables. -/
def emptyTables : Config.DecoderParams := ⟨fun _ => none, fun _ => none, "truncated", false⟩

theorem test_decoder_registers : decodeResponse emptyTables frameS5 (some [0x01#8, 0x03#8]) =
    ⟨true, some 0x01#8, some 0x03#8, false, none, .registers [10#16]⟩ := by decide +kernel

theorem test_decoder_exception : decodeResponse emptyTables frameS6 none =
    ⟨true, some 0x01#8, some 0x83#8, true, some "error code 83: illegal data value", .absent⟩ := by decide +kernel

theorem test_decoder_bits :
    decodeResponse emptyTables [0x01#8, 0x01#8, 0x01#8, 0x05#8, 0x91#8, 0x8B#8] (some [0x01#8, 0x01#8]) =
    ⟨true, some 0x01#8, some 0x01#8, false, none, .bits [true, false, true, false, false, false, false, false]⟩ := by
  decide +kernel

theorem test_decoder_single :
    decodeResponse emptyTables [0x01#8, 0x05#8, 0x00#8, 0x0A#8, 0xFF#8, 0x00#8, 0xAC#8, 0x38#8] (some [0x01#8, 0x05#8]) =
    ⟨true, some 0x01#8, some 0x05#8, false, none, .single 10#16 65280#16⟩ := by decide +kernel

theorem test_decoder_multiple :
    decodeResponse emptyTables [0x01#8, 0x10#8, 0x00#8, 0x01#8, 0x00#8, 0x02#8, 0x10#8, 0x08#8] (some [0x01#8, 0x10#8]) =
    ⟨true, some 0x01#8, some 0x10#8, false, none, .multiple 1#16 2#16⟩ := by decide +kernel

/-- The second register would be read from the CRC bytes. -/
theorem test_decoder_fails_closed :
    decodeResponse emptyTables [0x01#8, 0x03#8, 0x04#8, 0x00#8, 0x0A#8, 0xD8#8, 0x42#8] (some [0x01#8, 0x03#8]) =
    invalidResult "truncated" := by decide +kernel

theorem test_decoder_too_short :
    decodeResponse emptyTables [0x01#8, 0x02#8, 0x81#8, 0xE1#8] none = invalidResult "response too short" := by decide

/-! ### Witnesses: a concrete case that meets the hypotheses of each statement -/

/-- A word of each clause of the decoding procedure, boundary fields included. -/
theorem witness_DecodingProcedureAndItsInverse :
    opField 0x5FFF#16 ∈ [0x5#4, 0x6#4, 0x7#4, 0xD#4, 0xE#4, 0xF#4] ∧
    (opField 0x2183#16 ∉ [0x5#4, 0x6#4, 0x7#4, 0xD#4, 0xE#4, 0xF#4] ∧ rsvField 0x2183#16 ≠ 0#4) ∧
    (opField 0xB0FF#16 ∈ [0x0#4, 0x1#4, 0x3#4, 0x4#4, 0x9#4, 0xA#4, 0xB#4] ∧ rsvField 0xB0FF#16 = 0#4 ∧
      dField 0xB0FF#16 ≠ 0#8) ∧
    (opField 0xC0FF#16 ∉ [0x5#4, 0x6#4, 0x7#4, 0xD#4, 0xE#4, 0xF#4] ∧ rsvField 0xC0FF#16 = 0#4 ∧
      (opField 0xC0FF#16 ∈ [0x0#4, 0x1#4, 0x3#4, 0x4#4, 0x9#4, 0xA#4, 0xB#4] → dField 0xC0FF#16 = 0#8)) ∧
    decode 0xC0FF#16 = .ok (.fsPeek 0xFF#8) := by decide

theorem witness_OpcodeTableIsACompleteDecoder :
    (⟨0xFF00#16, 0x2000#16⟩ : OpcodeRow) ∈ opcodeTable ∧ OpcodeRow.matches ⟨0xFF00#16, 0x2000#16⟩ 0x20FF#16 = true := by
  decide

theorem witness_ReservedWordsAreIllegalAndCounted :
    opField 0xF000#16 ∈ [0x5#4, 0x6#4, 0x7#4, 0xD#4, 0xE#4, 0xF#4] ∧ rsvField 0x0100#16 ≠ 0#4 ∧
    opField 0x0001#16 ∈ [0x0#4, 0x1#4, 0x3#4, 0x4#4, 0x9#4, 0xA#4, 0xB#4] ∧ dField 0x0001#16 ≠ 0#8 := by decide

/-- A state with two words to come, the first legal. -/
theorem witness_StepRunsTheDecodedCommand :
    (State.reset.withWords [0x1000#16, 0x5000#16]).port = 0x1000#16 :: [0x5000#16] ∧
    decode 0x1000#16 = .ok .crcInit ∧ State.reset.port = [] := by decide

theorem witness_IllegalWordAnswersIllegal :
    (State.withWords (blockState 0x807E#16 1 [] false none) [0x5000#16]).port = 0x5000#16 :: [] ∧
    (State.withWords (blockState 0x807E#16 1 [] false none) [0x5000#16]).acc = 0x807E#16 ∧
    decode 0x5000#16 = .error (.reservedOp 0x5#4) := by decide

/-- Also for the second clause of MemoryIsUntouchedElsewhere. -/
theorem witness_EveryCommandReturnsOneResponse : ∀ i, decode 0x5000#16 ≠ .ok i := by
  intro i
  have h : decode 0x5000#16 = .error (.reservedOp 0x5#4) := by decide
  rw [h]
  nofun

/-- Two states that agree on the elements and differ in port and responses. -/
theorem witness_ResponseDependsOnTheElementsAlone :
    State.reset ≠ { State.reset with port := [0x0000#16], rsps := [.ok] } ∧
    State.reset.buf = ({ State.reset with port := [0x0000#16], rsps := [.ok] } : State).buf := by decide

theorem witness_WholeSequenceIsTheAccumulatorAsItStands :
    let acc : Nat → Word := fun k => if k = 0 then 0xFFFF#16 else 0x807E#16
    acc 0 = 0xFFFF#16 ∧ ∀ k (h : k < [0x01#8].length), acc (k + 1) = crcByte (acc k) [0x01#8][k] := by
  refine ⟨rfl, ?_⟩
  intro k h
  have hk : k = 0 := by simp at h; omega
  subst hk
  exact (by decide +kernel : (0x807E#16 : Word) = crcByte 0xFFFF#16 0x01#8)

/-- Lengths on both sides of the threshold. -/
theorem witness_ValidatorComparesTheTrailingTwoBytes :
    [0xFF#8, 0xFF#8].length < 3 ∧ 3 ≤ [0x01#8, 0x7E#8, 0x80#8].length := by decide

theorem witness_AppendedCrcValidates : [0x01#8] ≠ [] := by decide

theorem witness_SingleBitFlipChangesTheCrc : 2 < [0x01#8, 0x83#8, 0x02#8].length ∧ 7 < 8 := by decide

/-- Also for the first two clauses of ShortestMatchIsEmittedFirst and FrameLengthsAreBoundedByTheBuffer. -/
theorem witness_ResidueDecidesValidity : validateCRC frameS6 = true ∧ isFrame frameS6 = true ∧
    validateCRC (frameS6.take 4) = false := by decide +kernel

/-- For AccumulatorHoldsTheStreamedCrc, CrcGetAnswersTheAccumulator and CrcChkEqualsTheValidator: no `CRC_INIT` among
commands of both units. -/
theorem witness_AccumulatorHoldsTheStreamedCrc :
    Instr.crcInit ∉ [Instr.crcUpd 0x01#8, .fsPush 0x02#8, .crcUpd 0x83#8, .fsCommit] ∧
    absorbedBytes [.crcUpd 0x01#8, .fsPush 0x02#8, .crcUpd 0x83#8, .fsCommit] = [0x01#8, 0x83#8] := by decide

theorem witness_CrcChkAnswersTheResidueTest : (blockState 0x0000#16 2 [] false none).cnt ≠ 3 := by decide

theorem witness_CrcInitStartsAMessage : ∃ t u, exec .crcInit State.reset = .next t ∧ exec .crcInit t = .next u :=
  ⟨_, _, rfl, rfl⟩

theorem witness_UnitsAreIndependent : (inUnitC (.crcUpd 0x01#8) = true ∧ ∃ t, exec (.crcUpd 0x01#8) State.reset = .next t) ∧
    (inUnitS .fsCommit = true ∧ Instr.fsCommit ≠ .fsStat ∧ ∃ t, exec .fsCommit State.reset = .next t) :=
  ⟨⟨rfl, _, rfl⟩, rfl, nofun, _, rfl⟩

theorem witness_NopChangesNothing : opField 0x0FFF#16 = 0x0#4 ∧ 0x0FFF#16 ≠ 0x0000#16 := by decide

theorem witness_FindPrefixIsTheLeastCandidate :
    findPrefix (frameS6 ++ [0x00#8]) = some 5 ∧ findPrefix [0x01#8, 0x02#8, 0x03#8, 0x04#8] = none ∧
    [0x01#8, 0x02#8, 0x03#8].length < 4 := by decide +kernel

/-- Lengths 3 and 4, a buffer that opens with a frame and one that does not. -/
theorem witness_CommitFollowsTheExtractionLoop :
    [0x01#8, 0x02#8, 0x03#8].length < 4 ∧
    (4 ≤ [0x01#8, 0x02#8, 0x81#8, 0xE1#8].length ∧ findPrefix [0x01#8, 0x02#8, 0x81#8, 0xE1#8] = some 4) ∧
    (4 ≤ [0x01#8, 0x02#8, 0x03#8, 0x04#8].length ∧ findPrefix [0x01#8, 0x02#8, 0x03#8, 0x04#8] = none) := by
  decide +kernel

theorem witness_OnePassScanAgrees : 4 ≤ 5 ∧ 5 ≤ frameS6.length := by decide

theorem witness_EmittedFrames : (commit frameS6).frames = [frameS6] := by decide +kernel

theorem witness_NoFrameIsHeldBack :
    4 ≤ ((commit [0x01#8, 0x02#8, 0x03#8, 0x04#8]).dropped ++ (commit [0x01#8, 0x02#8, 0x03#8, 0x04#8]).rest).length := by
  decide +kernel

/-- The frame, and cuts at 3, at 4 and at its end; the remainder after a cut at 4 opens with nothing valid. -/
theorem witness_SplitFrameSurvivesWithinThreeBytes :
    validateCRC frameS5 = true ∧ 4 ≤ frameS5.length ∧
    (∀ j ∈ [4, 5, 6], validateCRC (frameS5.take j) = false) ∧ 3 ≤ frameS5.length ∧ 7 = frameS5.length ∧ 4 < frameS5.length ∧
    (∀ j ∈ [4, 5, 6], validateCRC ((frameS5.drop 1).take j) = false) ∧ (frameS5.drop 1).length = 6 := by decide +kernel

theorem witness_IngestComposesWhereNothingIsDropped : (ingest [] [0x01#8, 0x03#8, 0x02#8]).dropped = [] := by decide +kernel

/-- Room below the capacity, and a full buffer. -/
theorem witness_FsPushAppendsOrRefuses :
    (blockState 0#16 0 [0x01#8, 0x02#8, 0x81#8] false (some 4)).bufCap ≠
      some (blockState 0#16 0 [0x01#8, 0x02#8, 0x81#8] false (some 4)).buf.length ∧
    (blockState 0#16 0 [0x01#8, 0x02#8, 0x81#8, 0xE1#8] false (some 4)).bufCap =
      some (blockState 0#16 0 [0x01#8, 0x02#8, 0x81#8, 0xE1#8] false (some 4)).buf.length ∧
    (blockState 0#16 0 [0x01#8, 0x03#8] false none).bufCap = none ∧
    (blockState 0#16 0 [0x01#8, 0x03#8] false none).buf = [0x01#8, 0x03#8] := by decide

/-- Also for EmittedFramesAreCrcValid, BytesAreConserved, CommitLeavesAtMostThreeBytes, AddressesMoveDownByTheBytesRemoved and
ReadsChangeNothingAndRepeat: `FS_COMMIT` and `FS_CLEAR` answer a next state; here with something dropped. -/
theorem witness_FsCommitAndFsClearAnswer :
    (blockState 0#16 0 [0x01#8, 0x02#8, 0x03#8] false none).buf.length ≤ 3 ∧
    (∃ t u, exec .fsCommit (blockState 0#16 0 [0x01#8, 0x02#8, 0x03#8, 0x04#8] false none) = .next t ∧
      exec .fsClear t = .next u) ∧
    (∃ t u, exec .fsClear State.reset = .next t ∧ exec .fsClear t = .next u) ∧
    (commit [0x01#8, 0x02#8, 0x03#8, 0x04#8]).dropped ≠ [] :=
  ⟨by decide, ⟨_, _, rfl, rfl⟩, ⟨_, _, rfl, rfl⟩, by decide +kernel⟩

/-- The last address held and the first beyond. -/
theorem witness_FsPeekReadsOneByte :
    (0x02#8).toNat < (blockState 0#16 0 [0x0A#8, 0x38#8, 0x43#8] false none).buf.length ∧
    (blockState 0#16 0 [0x0A#8, 0x38#8, 0x43#8] false none).buf.length ≤ (0x03#8).toNat ∧
    (blockState 0#16 0 [0x0A#8, 0x38#8, 0x43#8] false none).buf = [0x0A#8, 0x38#8, 0x43#8] := by decide

theorem witness_EmptyIngestChangesNothing :
    (∃ t, exec .fsCommit State.reset = .next t) ∧ (∀ i ∈ [Instr.nop, .crcUpd 0x01#8], inUnitS i = false) :=
  ⟨⟨_, rfl⟩, by decide⟩

theorem witness_ReadsChangeNothingAndRepeat :
    ∀ j ∈ [Instr.nop, .fsPeek 0x00#8], j = .nop ∨ j = .crcGet ∨ j = .crcChk ∨ j = .fsStat ∨ ∃ k, j = .fsPeek k := by
  intro j hj
  simp only [List.mem_cons, List.not_mem_nil, or_false] at hj
  rcases hj with rfl | rfl
  · exact .inl rfl
  · exact .inr (.inr (.inr (.inr ⟨_, rfl⟩)))

/-- Words between two `FS_COMMIT`s: `FS_CLEAR`, an illegal word, and `FS_COMMIT`; none is an `FS_PUSH`. -/
theorem witness_SecondCommitFindsNothing : (∃ t, exec .fsCommit (blockState 0#16 0 frameS6 false none) = .next t) ∧
    ∀ w ∈ [0xA000#16, 0x8100#16, 0x9000#16], ∀ d, decode w ≠ .ok (.fsPush d) := by
  refine ⟨⟨_, rfl⟩, fun w hw d => ?_⟩
  simp only [List.mem_cons, List.not_mem_nil, or_false] at hw
  rcases hw with rfl | rfl | rfl <;> nofun

theorem witness_MemoryIsUntouchedElsewhere :
    (∃ t, exec .crcGet State.reset = .next t) ∧ Instr.crcGet ≠ .fsCommit ∧ Instr.crcGet ≠ .fsClear ∧
    (∀ d, Instr.crcGet ≠ .fsPush d) ∧ Instr.crcGet ≠ .crcInit ∧ (∀ d, Instr.crcGet ≠ .crcUpd d) ∧
    (∃ t, runWord 0x5000#16 State.reset = .next t) ∧ (∃ t, exec (.fsPush 0x01#8) State.reset = .next t) :=
  ⟨⟨_, rfl⟩, nofun, nofun, nofun, nofun, nofun, ⟨_, rfl⟩, ⟨_, rfl⟩⟩

/-- The chunk fills the buffer exactly; and one byte more does not fit. Also for PseudoInstructionsComputeTheSourceFunctions. -/
theorem witness_OnlyTheExcessOfAChunkIsRefused :
    (State.resetWith (some 4)).bufCap = some 4 ∧
    (State.resetWith (some 4)).buf.length + [0x01#8, 0x02#8, 0x81#8, 0xE1#8].length ≤ 4 ∧
    (State.resetWith (some 4)).buf.length ≤ 4 ∧
    4 < (State.resetWith (some 4)).buf.length + [0x01#8, 0x02#8, 0x81#8, 0xE1#8, 0x99#8].length := by decide

/-- A bounded block that has lost nothing, one that has, and an unbounded one. -/
theorem witness_OverflowMarksTheLossOfAByte :
    (∃ t, exec (.fsPush 0x01#8) (State.resetWith (some 4)) = .next t) ∧
    (blockState 0#16 0 [] true (some 4)).ovf = true ∧ (State.reset.bufCap = none ∧ State.reset.ovf = false) ∧
    (afterCommands (State.resetWith (some 4)) [.fsPush 0x01#8, .fsCommit]).ovf = false :=
  ⟨⟨_, rfl⟩, rfl, ⟨rfl, rfl⟩, by decide +kernel⟩

theorem witness_ResetMeetsTheInvariant : WellFormed.bufCap (some 4) = true ∧ WellFormed.bufCap none = true := by decide

/-- A full bounded block that has lost a byte meets the invariant, and steps. -/
theorem witness_StepKeepsTheInvariant :
    (presentWord (blockState 0#16 0 [0x01#8, 0x02#8, 0x81#8, 0xE1#8] true (some 4)) 0x8099#16).Inv ∧
    ∃ t, step (presentWord (blockState 0#16 0 [0x01#8, 0x02#8, 0x81#8, 0xE1#8] true (some 4)) 0x8099#16) = .next t :=
  ⟨⟨rfl, by decide, nofun⟩, _, rfl⟩

/-- The source's exception frame and the four-byte frame of 95_test_vectors.md P6 are frames `FS_COMMIT` can emit. -/
theorem witness_FsCommitEmits : FsCommitEmits frameS6 ∧ FsCommitEmits [0x01#8, 0x02#8, 0x81#8, 0xE1#8] :=
  ⟨⟨blockState 0#16 0 frameS6 false none, _, _, _, rfl, rfl, by decide +kernel⟩,
   ⟨blockState 0#16 0 [0x01#8, 0x02#8, 0x81#8, 0xE1#8] false none, _, _, _, rfl, rfl, by decide +kernel⟩⟩

/-- A form for each clause: frames joined without marks and high byte first, and frames and their bytes backwards. -/
theorem witness_ConcatenationLosesFrameBoundaries :
    let joined : Serialisation (List Byte) :=
      { send := fun r => match r with
          | .crc v => [hi8 v, lo8 v]
          | .frames fs dropped => fs.flatten ++ dropped
          | .ok | .valid _ | .stat _ _ _ | .byte _ | .err _ => []
        crcPair := fun w => match w with
          | [a, b] => some (a, b)
          | _ => none
        frameBytes := fun w => w }
    let backwards : Serialisation (List Byte) := { joined with frameBytes := List.reverse }
    let frame := [0x01#8, 0x02#8, 0x81#8, 0xE1#8]
    (∀ fs dropped, joined.send (.frames fs dropped) = fs.flatten ++ dropped) ∧
    (joined.crcPair (joined.send (.crc 0x4338#16)) = some (hi8 0x4338#16, lo8 0x4338#16) ∧ hi8 0x4338#16 ≠ lo8 0x4338#16) ∧
    (backwards.frameBytes (backwards.send (.frames [frameS6] [])) = frameS6.reverse ∧ frameS6.reverse ≠ frameS6) ∧
    (({ joined with frameBytes := fun w => w.drop 5 ++ w.take 5 } : Serialisation (List Byte)).frameBytes
        (joined.send (.frames [frameS6, frame] [])) = frame ++ frameS6 ∧ frame ++ frameS6 ≠ frameS6 ++ frame) :=
  ⟨fun _ _ => rfl, by decide, by decide, by decide⟩

/-- The FIFO with end marks, on one frame and one dropped byte. -/
theorem test_markedFifo :
    markedFifo.send (.frames [[0x01#8, 0x02#8]] [0x03#8]) = [some 0x01#8, some 0x02#8, none, some 0x03#8] ∧
    markedFifo.frameBytes [some 0x01#8, some 0x02#8, none, some 0x03#8] = [0x01#8, 0x02#8] := by decide

/-- Lengths 4 and 5, an invalid and a valid frame, one no exception, and requests of one byte and of none. -/
theorem witness_DecoderTestsLengthThenCrcThenRequest :
    [0x01#8, 0x02#8, 0x81#8, 0xE1#8].length < 5 ∧
    (5 ≤ [0x01#8, 0x83#8, 0x02#8, 0xF1#8, 0xC0#8].length ∧ validateCRC [0x01#8, 0x83#8, 0x02#8, 0xF1#8, 0xC0#8] = false) ∧
    (5 ≤ frameS5.length ∧ validateCRC frameS5 = true ∧ (0x03#8).getLsbD 7 = false ∧ [0x01#8].length < 2) := by
  decide +kernel

theorem witness_DecoderReportsExceptionResponses :
    5 ≤ frameS6.length ∧ validateCRC frameS6 = true ∧ (0x83#8).getLsbD 7 = true ∧
    (0x84#8 ≠ 0x83#8 ∧ emptyTables.errTable 0x84#8 = none) ∧
    ({ emptyTables with errTable := fun _ => some "busy" } : Config.DecoderParams).errTable 0x84#8 = some "busy" := by
  decide +kernel

/-- A register response that fits exactly (one register, seven bytes), one that does not, and frames of length 7 and 8. -/
theorem witness_DecoderUnpacksByTheRequestedFunction :
    (5 ≤ frameS5.length ∧ 2 ≤ [0x01#8, 0x03#8].length ∧ validateCRC frameS5 = true ∧ 3 + 2 * (2 / 2) ≤ frameS5.length - 2) ∧
    (validateCRC [0x01#8, 0x03#8, 0x04#8, 0x00#8, 0x0A#8, 0xD8#8, 0x42#8] = true ∧ 7 - 2 < 3 + 2 * (4 / 2)) ∧
    (frameS5.length < 8 ∧ 8 ≤ [0x01#8, 0x05#8, 0x00#8, 0x0A#8, 0xFF#8, 0x00#8, 0xAC#8, 0x38#8].length) ∧
    validateCRC [0x01#8, 0x05#8, 0x00#8, 0x0A#8, 0xFF#8, 0x00#8, 0xAC#8, 0x38#8] = true := by decide +kernel

/-- The other function code of each clause, on the same examples of R177 and R178, and one that no clause names: none of them
is the response's own. -/
theorem witness_DecoderUnpacksByTheOtherFunctions :
    decodeResponse emptyTables [0x01#8, 0x01#8, 0x01#8, 0x05#8, 0x91#8, 0x8B#8] (some [0x01#8, 0x02#8]) =
      ⟨true, some 0x01#8, some 0x01#8, false, none, .bits [true, false, true, false, false, false, false, false]⟩ ∧
    decodeResponse emptyTables frameS5 (some [0x01#8, 0x04#8]) =
      ⟨true, some 0x01#8, some 0x03#8, false, none, .registers [10#16]⟩ ∧
    decodeResponse emptyTables [0x01#8, 0x05#8, 0x00#8, 0x0A#8, 0xFF#8, 0x00#8, 0xAC#8, 0x38#8] (some [0x01#8, 0x06#8]) =
      ⟨true, some 0x01#8, some 0x05#8, false, none, .single 10#16 65280#16⟩ ∧
    decodeResponse emptyTables [0x01#8, 0x10#8, 0x00#8, 0x01#8, 0x00#8, 0x02#8, 0x10#8, 0x08#8] (some [0x01#8, 0x0F#8]) =
      ⟨true, some 0x01#8, some 0x10#8, false, none, .multiple 1#16 2#16⟩ ∧
    decodeResponse emptyTables frameS5 (some [0x01#8, 0x63#8]) =
      ⟨true, some 0x01#8, some 0x03#8, false, none, .unrecognized⟩ := by decide +kernel

end Sys2Proof.Tests
end

section
/-! SUPPORT. A command's word runs the command; every command has a next state; a list of commands one command at a time. -/

namespace Sys2Proof.Machine

/-- Decoding the word of a command gives the command back (30_encoding.md R64, R68). -/
@[simp] theorem decode_encode (i : Instr) : decode (encode i) = .ok i := by
  obtain ⟨hop, hrsv, hd⟩ := Laws.EncodedFields.of_parts i
  cases i <;> simp [decode, decodeFormatN, decodeFormatB, opcode, operandByte, hop, hrsv, hd]

@[simp] theorem runWord_encode (i : Instr) (s : State) : runWord (encode i) s = exec i s := by
  simp [runWord]

theorem afterCommands_cons_of_exec {i : Instr} {s t : State} (h : exec i s = .next t) (is : List Instr) :
    afterCommands s (i :: is) = afterCommands t is := by
  have hword : afterWord s (encode i) = t := afterWord_of_next (by rw [runWord_encode, h])
  simp only [afterCommands, List.map_cons, afterWords_cons, hword]

end Sys2Proof.Machine
end

section
/-! SUPPORT. The refused `FS_PUSH`, the one command whose effect depends on `BUF_CAP`: what it does, and that every other
command keeps `OVF` and does what the unbounded block does (10_state.md R24). -/

namespace Sys2Proof.Machine

/-- The command is an `FS_PUSH` that finds the buffer full (41_splitter.md R121). -/
def PushRefused (i : Instr) (s : State) : Prop :=
  (∃ d, i = .fsPush d) ∧ s.bufCap = some s.buf.length

/-- The block in the same state with `BUF_CAP` unbounded: the source's own splitter (00_scope.md R8). -/
def State.unbounded (s : State) : State := { s with bufCap := none }

theorem exec_of_pushRefused {i : Instr} {s : State} (h : PushRefused i s) :
    exec i s = .next ((raiseOvf s).addRsp (.err .overflow)) := by
  obtain ⟨⟨d, rfl⟩, hfull⟩ := h
  exact exec_fsPush_full d hfull

/-- A command that is no refused push never looks at `BUF_CAP`: on the unbounded block it does the same. -/
theorem exec_of_not_pushRefused {i : Instr} {s : State} (h : ¬ PushRefused i s) :
    ∃ t, exec i s = .next t ∧ t.ovf = s.ovf ∧ t.bufCap = s.bufCap ∧ exec i s.unbounded = .next t.unbounded := by
  cases i with
  | fsPush d =>
    have hroom : s.bufCap ≠ some s.buf.length := fun hfull => h ⟨⟨d, rfl⟩, hfull⟩
    exact ⟨_, exec_fsPush_room d hroom, rfl, rfl, exec_fsPush_room d nofun⟩
  | fsPeek k =>
    by_cases hk : k.toNat < s.buf.length
    · exact ⟨_, exec_fsPeek_held hk, rfl, rfl, exec_fsPeek_held (s := s.unbounded) hk⟩
    · have hk' : s.buf.length ≤ k.toNat := Nat.le_of_not_lt hk
      exact ⟨_, exec_fsPeek_beyond hk', rfl, rfl, exec_fsPeek_beyond (s := s.unbounded) hk'⟩
  | nop | crcInit | crcUpd | crcGet | crcChk | fsCommit | fsClear | fsStat => exact ⟨_, rfl, rfl, rfl, rfl⟩

/-- Every command has a next state (60_exceptions.md R190), with the capacity it had. -/
theorem exec_total (i : Instr) (s : State) : ∃ t, exec i s = .next t ∧ t.bufCap = s.bufCap := by
  by_cases h : PushRefused i s
  · exact ⟨_, exec_of_pushRefused h, rfl⟩
  · obtain ⟨t, ht, -, hcap, -⟩ := exec_of_not_pushRefused h
    exact ⟨t, ht, hcap⟩

/-- What every command keeps, every list of commands keeps. -/
theorem afterCommands_keeps {P : State → Prop} (hexec : ∀ i s t, exec i s = .next t → P s → P t)
    (s : State) (is : List Instr) (hs : P s) : P (afterCommands s is) := by
  induction is generalizing s with
  | nil => exact hs
  | cons i is ih =>
    obtain ⟨t, ht, -⟩ := exec_total i s
    rw [afterCommands_cons_of_exec ht]
    exact ih t (hexec i s t ht hs)

theorem exec_ovf_iff {i : Instr} {s t : State} (h : exec i s = .next t) :
    t.ovf = true ↔ s.ovf = true ∨ PushRefused i s := by
  by_cases hr : PushRefused i s
  · obtain rfl : _ = t := by simpa [exec_of_pushRefused hr] using h
    simp [hr]
  · obtain ⟨t', ht', hovf, -, -⟩ := exec_of_not_pushRefused hr
    obtain rfl : t' = t := by simpa [ht'] using h
    simp [hr, hovf]

theorem exec_bufCap {i : Instr} {s t : State} (h : exec i s = .next t) : t.bufCap = s.bufCap := by
  obtain ⟨t', ht', hcap⟩ := exec_total i s
  obtain rfl : t' = t := by simpa [ht'] using h
  exact hcap

theorem not_pushRefused_of_unbounded {i : Instr} {s : State} (h : s.bufCap = none) : ¬ PushRefused i s := by
  simp [PushRefused, h]

end Sys2Proof.Machine
end

section
/-! 10_state.md R24: `OVF` over runs, and the block while `OVF = 0` as the unbounded one. -/

namespace Sys2Proof.Machine

theorem afterCommands_ovf_sticky (s : State) (is : List Instr) (h : s.ovf = true) : (afterCommands s is).ovf = true :=
  afterCommands_keeps (P := fun s => s.ovf = true) (fun _ _ _ ht hs => (exec_ovf_iff ht).mpr (.inl hs)) s is h

theorem exec_keeps_unbounded_without_overflow (i : Instr) (s t : State) (ht : exec i s = .next t)
    (hs : s.bufCap = none ∧ s.ovf = false) : t.bufCap = none ∧ t.ovf = false := by
  obtain ⟨hcap, hovf⟩ := hs
  refine ⟨by rw [exec_bufCap ht, hcap], Bool.eq_false_iff.mpr fun hset => ?_⟩
  rcases (exec_ovf_iff ht).mp hset with hset | hrefused
  · simp [hovf] at hset
  · exact not_pushRefused_of_unbounded hcap hrefused

/-- No push of a run that ends with `OVF = 0` was refused, for `OVF` would have stayed set; so every command of the run does
what it does on the unbounded block. -/
theorem afterCommands_unbounded_of_ovf_false (s : State) (is : List Instr) (h : (afterCommands s is).ovf = false) :
    afterCommands s.unbounded is = (afterCommands s is).unbounded := by
  induction is generalizing s with
  | nil => rfl
  | cons i is ih =>
    by_cases hr : PushRefused i s
    · rw [afterCommands_cons_of_exec (exec_of_pushRefused hr), afterCommands_ovf_sticky _ _ rfl] at h
      contradiction
    · obtain ⟨t, ht, -, -, htu⟩ := exec_of_not_pushRefused hr
      rw [afterCommands_cons_of_exec ht] at h ⊢
      rw [afterCommands_cons_of_exec htu]
      exact ih t h

/-- Settles O52: stickiness and the unbounded block by what every command keeps, the refinement by induction on the commands. -/
theorem overflowMarksTheLossOfAByte : Obligations.OverflowMarksTheLossOfAByte := by
  refine ⟨fun i s t h => exec_ovf_iff h, afterCommands_ovf_sticky, fun s is hcap hovf => ?_,
    afterCommands_unbounded_of_ovf_false, resetEvent_ovf⟩
  exact (afterCommands_keeps exec_keeps_unbounded_without_overflow s is ⟨hcap, hovf⟩).2

end Sys2Proof.Machine
end

section
/-! SUPPORT. What each word of a list keeps, the list keeps; and the commands that write none of the four state elements
(20_memory.md R48): their response is fixed by the elements alone, so they keep the elements and repeat. -/

namespace Sys2Proof.Machine

/-- Every word has a next state (60_exceptions.md R190). -/
theorem runWord_total (w : Word) (s : State) : ∃ t, runWord w s = .next t := by
  rcases runWord_cases w s with ⟨i, -, hrun⟩ | ⟨_, -, hrun⟩
  · obtain ⟨t, ht, -⟩ := exec_total i s
    exact ⟨t, hrun.trans ht⟩
  · exact ⟨_, hrun⟩

theorem afterWords_keeps {P : State → Prop} (ws : List Word)
    (hword : ∀ w ∈ ws, ∀ s t, runWord w s = .next t → P s → P t) (s : State) (hs : P s) : P (afterWords s ws) := by
  induction ws generalizing s with
  | nil => exact hs
  | cons w ws ih =>
    obtain ⟨t, ht⟩ := runWord_total w s
    rw [afterWords_cons, afterWord_of_next ht]
    exact ih (fun v hv => hword v (.tail w hv)) t (hword w (.head ws) s t ht hs)

/-- The four state elements of 10_state.md R20 are the same in `t` as in `s`. -/
structure SameElements (s t : State) : Prop where
  acc : t.acc = s.acc
  cnt : t.cnt = s.cnt
  buf : t.buf = s.buf
  ovf : t.ovf = s.ovf

theorem SameElements.refl (s : State) : SameElements s s := ⟨rfl, rfl, rfl, rfl⟩

theorem SameElements.addRsp {s t : State} (h : SameElements s t) (r : Rsp) : SameElements s (t.addRsp r) :=
  ⟨h.acc, h.cnt, h.buf, h.ovf⟩

/-- The four reads of 20_memory.md R48. -/
def IsRead (i : Instr) : Prop := i = .crcGet ∨ i = .crcChk ∨ i = .fsStat ∨ ∃ k, i = .fsPeek k

/-- A read or `NOP`: the commands that write no state element. -/
def WritesNothing (i : Instr) : Prop := i = .nop ∨ IsRead i

theorem exec_of_writesNothing {i : Instr} (h : WritesNothing i) (s : State) :
    ∃ r, ∀ t, SameElements s t → exec i t = .next (t.addRsp r) := by
  rcases h with rfl | rfl | rfl | rfl | ⟨k, rfl⟩
  · exact ⟨.ok, fun t _ => exec_nop t⟩
  · exact ⟨.crc s.acc, fun t ht => by rw [exec_crcGet, ht.acc]⟩
  · exact ⟨.valid (s.cnt == 3 && s.acc == 0#16), fun t ht => by rw [exec_crcChk, ht.cnt, ht.acc]⟩
  · exact ⟨.stat s.buf.length s.ovf s.cnt, fun t ht => by rw [exec_fsStat, ht.buf, ht.ovf, ht.cnt]⟩
  · by_cases hk : k.toNat < s.buf.length
    · refine ⟨.byte s.buf[k.toNat], fun t ht => ?_⟩
      simp only [exec_fsPeek_held (s := t) (ht.buf ▸ hk), ht.buf]
    · exact ⟨.err .range, fun t ht => exec_fsPeek_beyond (by rw [ht.buf]; omega)⟩

theorem afterCommands_sameElements {is : List Instr} (his : ∀ i ∈ is, WritesNothing i) (s : State) :
    SameElements s (afterCommands s is) := by
  refine afterWords_keeps (P := SameElements s) _ (fun w hw t u hrun hst => ?_) s (.refl s)
  obtain ⟨i, hi, rfl⟩ := List.mem_map.mp hw
  obtain ⟨r, hr⟩ := exec_of_writesNothing (his i hi) s
  obtain rfl : t.addRsp r = u := by simpa [hr t hst] using hrun
  exact hst.addRsp r

end Sys2Proof.Machine
end

section
/-! SUPPORT. A commit leaves at most three bytes (41_splitter.md R132), a commit of at most three bytes does nothing, and no
word but an `FS_PUSH` makes a buffer of at most three bytes longer. -/

namespace Sys2Proof.Machine

theorem commitLoop_rest_length (n : Nat) (b : List Byte) (hn : b.length ≤ n) : (commitLoop n b).rest.length ≤ 3 := by
  induction n generalizing b with
  | zero => rw [commitLoop_short _ (by omega)]; exact hn.trans (by omega)
  | succ n ih =>
    by_cases hs : b.length < 4
    · rw [commitLoop_short _ hs]; exact Nat.le_of_lt_succ hs
    · simp only [commitLoop, Config.minLen, hs, if_false]
      cases hp : findPrefix b with
      | none => simp only [Config.tail, List.length_drop]; omega
      | some i =>
        obtain ⟨hi, -, -⟩ := findPrefix_some hp
        exact ih (b.drop i) (by rw [List.length_drop]; omega)

theorem commit_rest_length (b : List Byte) : (commit b).rest.length ≤ 3 := commitLoop_rest_length _ b le_rfl

theorem commit_short {b : List Byte} (h : b.length ≤ 3) : commit b = ⟨[], [], b⟩ :=
  commitLoop_short _ (Nat.lt_succ_of_le h)

theorem exec_fsCommit_short {s : State} (h : s.buf.length ≤ 3) :
    exec .fsCommit s = .next (s.addRsp (.frames [] [])) := by
  rw [exec_fsCommit, commit_short h]
  rfl

theorem exec_keeps_short_buffer {i : Instr} {s t : State} (hpush : ∀ d, i ≠ .fsPush d) (ht : exec i s = .next t)
    (hs : s.buf.length ≤ 3) : t.buf.length ≤ 3 := by
  cases i with
  | nop | crcInit | crcUpd | crcGet | crcChk | fsStat => obtain rfl := Host.Outcome.next.inj ht; exact hs
  | fsPeek k =>
    obtain ⟨r, hr⟩ := exec_of_writesNothing (.inr (.inr (.inr (.inr ⟨k, rfl⟩)))) s
    obtain rfl : s.addRsp r = t := by simpa [hr s (.refl s)] using ht
    exact hs
  | fsPush d => exact absurd rfl (hpush d)
  | fsCommit => obtain rfl := Host.Outcome.next.inj ht; exact commit_rest_length s.buf
  | fsClear => obtain rfl := Host.Outcome.next.inj ht; exact Nat.zero_le 3

theorem runWord_keeps_short_buffer {w : Word} {s t : State} (hpush : ∀ d, decode w ≠ .ok (.fsPush d))
    (ht : runWord w s = .next t) (hs : s.buf.length ≤ 3) : t.buf.length ≤ 3 := by
  rcases runWord_cases w s with ⟨i, hi, hrun⟩ | ⟨_, -, hrun⟩
  · exact exec_keeps_short_buffer (fun d hd => hpush d (by rw [hi, hd])) (hrun ▸ ht) hs
  · obtain rfl : s.addRsp (.err .illegal) = t := by simpa [hrun] using ht
    exact hs

end Sys2Proof.Machine
end

section
/-! 20_memory.md R48: reads repeat, which commands are idempotent, and the second `FS_COMMIT`. -/

namespace Sys2Proof.Machine

theorem read_repeats {i : Instr} (hi : IsRead i) (s : State) {between : List Instr}
    (hbetween : ∀ j ∈ between, WritesNothing j) :
    ∃ r, exec i s = .next (s.addRsp r) ∧
      exec i (afterCommands s between) = .next ((afterCommands s between).addRsp r) := by
  obtain ⟨r, hr⟩ := exec_of_writesNothing (.inr hi) s
  exact ⟨r, hr s (.refl s), hr _ (afterCommands_sameElements hbetween s)⟩

theorem exec_twice_of_idempotent {i : Instr} (hi : i = .fsClear ∨ i = .crcInit ∨ i = .nop) {s t : State}
    (ht : exec i s = .next t) : exec i t = .next (t.addRsp .ok) := by
  rcases hi with rfl | rfl | rfl <;> obtain rfl := Host.Outcome.next.inj ht
  · rw [exec_fsClear]; rfl
  · rw [exec_crcInit]; rfl
  · rw [exec_nop]

theorem second_fsCommit {s t : State} (ht : exec .fsCommit s = .next t) {between : List Word}
    (hbetween : ∀ w ∈ between, ∀ d, decode w ≠ .ok (.fsPush d)) :
    exec .fsCommit (afterWords t between) = .next ((afterWords t between).addRsp (.frames [] [])) := by
  have hshort : t.buf.length ≤ 3 := by
    obtain rfl := Host.Outcome.next.inj ht
    exact commit_rest_length s.buf
  exact exec_fsCommit_short (afterWords_keeps (P := fun u => u.buf.length ≤ 3) between
    (fun w hw _ _ => runWord_keeps_short_buffer (hbetween w hw)) t hshort)

/-- Settles O47: reads by the elements they depend on, the second commit by the bound of three bytes that every word but
`FS_PUSH` keeps; `FS_PUSH 0x00` and `CRC_UPD 0x00` from reset are the two that are not idempotent. -/
theorem readsChangeNothingAndRepeat : Obligations.ReadsChangeNothingAndRepeat := by
  refine ⟨fun i s between hi hbetween => ?_, fun i s t hi ht => exec_twice_of_idempotent hi ht,
    fun s t between ht hbetween => ⟨_, rfl, second_fsCommit ht hbetween⟩,
    ⟨0x00#8, .reset, _, _, rfl, rfl, by decide⟩, ⟨0x00#8, .reset, _, _, rfl, rfl, by decide +kernel⟩⟩
  obtain ⟨r, hfirst, hagain⟩ := read_repeats hi s hbetween
  obtain ⟨hacc, hcnt, hbuf, hovf⟩ := afterCommands_sameElements hbetween s
  exact ⟨r, _, hfirst, rfl, hacc, hcnt, hbuf, hovf, hagain⟩

end Sys2Proof.Machine
end

section
/-! 30_encoding.md R68: the decoding procedure by the three groups of operation codes of R62, R63 and R65, and the encoder as
its inverse. -/

namespace Sys2Proof

/-- The operation codes no command has (30_encoding.md R65). -/
def reservedOps : List (BitVec 4) := [0x5#4, 0x6#4, 0x7#4, 0xD#4, 0xE#4, 0xF#4]

/-- The operation codes of format N (30_encoding.md R62). -/
def formatNOps : List (BitVec 4) := [0x0#4, 0x1#4, 0x3#4, 0x4#4, 0x9#4, 0xA#4, 0xB#4]

/-- The operation codes of format B (30_encoding.md R63). -/
def formatBOps : List (BitVec 4) := [0x2#4, 0x8#4, 0xC#4]

theorem mem_formatOps_of_not_reserved :
    ∀ op : BitVec 4, op ∉ reservedOps → op ∈ formatNOps ∨ op ∈ formatBOps := by decide

theorem decode_of_reservedOp {w : Word} (hop : opField w ∈ reservedOps) :
    decode w = .error (.reservedOp (opField w)) := by
  simp only [reservedOps, List.mem_cons, List.not_mem_nil, or_false] at hop
  rcases hop with h | h | h | h | h | h <;> simp [decode, h]

/-- The command that a format N operation code names. -/
theorem decode_of_formatN {w : Word} (hop : opField w ∈ formatNOps) :
    ∃ i, opcode i = opField w ∧ operandByte i = 0#8 ∧ decode w = decodeFormatN w i := by
  simp only [formatNOps, List.mem_cons, List.not_mem_nil, or_false] at hop
  rcases hop with h | h | h | h | h | h | h <;> rw [decode, h] <;> exact ⟨_, rfl, rfl, rfl⟩

/-- The command that a format B operation code names, as a function of its operand. -/
theorem decode_of_formatB {w : Word} (hop : opField w ∈ formatBOps) :
    ∃ command : Byte → Instr, (∀ d, opcode (command d) = opField w ∧ operandByte (command d) = d) ∧
      decode w = decodeFormatB w command := by
  simp only [formatBOps, List.mem_cons, List.not_mem_nil, or_false] at hop
  rcases hop with h | h | h <;> rw [decode, h] <;> exact ⟨_, fun _ => ⟨rfl, rfl⟩, rfl⟩

theorem decode_of_reservedBits {w : Word} (hop : opField w ∉ reservedOps) (hrsv : rsvField w ≠ 0#4) :
    decode w = .error (.reservedBits (rsvField w)) := by
  rcases mem_formatOps_of_not_reserved _ hop with hN | hB
  · obtain ⟨i, -, -, hdecode⟩ := decode_of_formatN hN
    rw [hdecode, decodeFormatN, if_neg hrsv]
  · obtain ⟨command, -, hdecode⟩ := decode_of_formatB hB
    rw [hdecode, decodeFormatB, if_neg hrsv]

theorem decode_of_strayOperand {w : Word} (hop : opField w ∈ formatNOps) (hrsv : rsvField w = 0#4)
    (hd : dField w ≠ 0#8) : decode w = .error (.strayOperand (dField w)) := by
  obtain ⟨i, -, -, hdecode⟩ := decode_of_formatN hop
  rw [hdecode, decodeFormatN, if_pos hrsv, if_neg hd]

theorem decode_of_legalFields {w : Word} (hop : opField w ∉ reservedOps) (hrsv : rsvField w = 0#4)
    (hd : opField w ∈ formatNOps → dField w = 0#8) :
    ∃ i, decode w = .ok i ∧ opcode i = opField w ∧ operandByte i = dField w := by
  rcases mem_formatOps_of_not_reserved _ hop with hN | hB
  · obtain ⟨i, hi, hzero, hdecode⟩ := decode_of_formatN hN
    refine ⟨i, ?_, hi, hzero.trans (hd hN).symm⟩
    rw [hdecode, decodeFormatN, if_pos hrsv, if_pos (hd hN)]
  · obtain ⟨command, hcommand, hdecode⟩ := decode_of_formatB hB
    refine ⟨command (dField w), ?_, hcommand (dField w)⟩
    rw [hdecode, decodeFormatB, if_pos hrsv]

/-- A word that is illegal by one of its fields (30_encoding.md R65, R66). -/
def IllegalFields (w : Word) : Prop :=
  opField w ∈ reservedOps ∨ rsvField w ≠ 0#4 ∨ (opField w ∈ formatNOps ∧ dField w ≠ 0#8)

theorem decode_of_illegalFields {w : Word} (h : IllegalFields w) : ∃ why, decode w = .error why := by
  by_cases hop : opField w ∈ reservedOps
  · exact ⟨_, decode_of_reservedOp hop⟩
  by_cases hrsv : rsvField w = 0#4
  · rcases h with hop' | hrsv' | ⟨hN, hd⟩
    · exact absurd hop' hop
    · exact absurd hrsv hrsv'
    · exact ⟨_, decode_of_strayOperand hN hrsv hd⟩
  · exact ⟨_, decode_of_reservedBits hop hrsv⟩

/-- A word whose `rsv` field is zero is put together from its other two fields (30_encoding.md R61). -/
theorem wordOf_fields {w : Word} (hrsv : rsvField w = 0#4) : wordOf (opField w) (dField w) = w := by
  have hmid : ∀ j, j < 4 → w.getLsbD (8 + j) = false := fun j hj => by
    simpa [rsvField, hj] using congrArg (·.getLsbD j) hrsv
  ext k hk
  rcases lt_or_ge k 8 with hlow | hhigh
  · simp [wordOf, dField, show k < 12 by omega, hlow, hk]
  rcases lt_or_ge k 12 with hk12 | hk12
  · have hzero := hmid (k - 8) (by omega)
    rw [Nat.add_sub_cancel' hhigh] at hzero
    simp [wordOf, dField, hk12, Nat.not_lt.mpr hhigh, ← BitVec.getLsbD_eq_getElem hk, hzero]
  · simp [wordOf, opField, dField, Nat.not_lt.mpr hk12, Nat.not_lt.mpr hhigh, show k - 12 < 4 by omega,
      Nat.add_sub_cancel' hk12, hk]

/-- What decoding to a command says of the word's fields. -/
theorem fields_of_decode {w : Word} {i : Instr} (h : decode w = .ok i) :
    rsvField w = 0#4 ∧ opcode i = opField w ∧ operandByte i = dField w := by
  by_cases hill : IllegalFields w
  · obtain ⟨why, hwhy⟩ := decode_of_illegalFields hill
    rw [hwhy] at h
    contradiction
  · simp only [IllegalFields, not_or, not_and, ne_eq, not_not] at hill
    obtain ⟨hop, hrsv, hd⟩ := hill
    obtain ⟨j, hj, hopcode, hoperand⟩ := decode_of_legalFields hop hrsv hd
    obtain rfl : j = i := Except.ok.inj (hj.symm.trans h)
    exact ⟨hrsv, hopcode, hoperand⟩

theorem encode_of_decode {w : Word} {i : Instr} (h : decode w = .ok i) : encode i = w := by
  obtain ⟨hrsv, hopcode, hoperand⟩ := fields_of_decode h
  rw [encode, hopcode, hoperand, wordOf_fields hrsv]

/-- Settles O2: the procedure by the three groups of operation codes, the inverse by the fields that decoding reads. -/
theorem decodingProcedureAndItsInverse : Obligations.DecodingProcedureAndItsInverse :=
  ⟨fun _ => decode_of_reservedOp, fun _ => decode_of_reservedBits, fun _ => decode_of_strayOperand,
    fun _ => decode_of_legalFields, Machine.decode_encode, fun _ _ => encode_of_decode⟩

end Sys2Proof
end

section
/-! 30_encoding.md R65 and R66: the words counted, by lists that hold each word once. -/

namespace Sys2Proof

/-- Every value of `n` bits, once. -/
def allBitVecs (n : Nat) : List (BitVec n) := (List.finRange (2 ^ n)).map BitVec.ofFin

@[simp] theorem mem_allBitVecs {n : Nat} (x : BitVec n) : x ∈ allBitVecs n :=
  List.mem_map.mpr ⟨x.toFin, List.mem_finRange _, rfl⟩

@[simp] theorem length_allBitVecs (n : Nat) : (allBitVecs n).length = 2 ^ n := by
  rw [allBitVecs, List.length_map, List.length_finRange]

theorem nodup_allBitVecs (n : Nat) : (allBitVecs n).Nodup :=
  (List.nodup_finRange _).map fun _ _ h => congrArg BitVec.toFin h

/-- The word with operation code `op` and the twelve bits `low` below it. -/
def wordWithLow (p : BitVec 4 × BitVec 12) : Word := p.1 ++ p.2

theorem opField_wordWithLow (p : BitVec 4 × BitVec 12) : opField (wordWithLow p) = p.1 :=
  BitVec.extractLsb'_append_eq_left

theorem wordWithLow_fields (w : Word) : wordWithLow (opField w, w.extractLsb' 0 12) = w :=
  BitVec.extractLsb'_append_extractLsb'

theorem wordWithLow_injective : Function.Injective wordWithLow :=
  Function.LeftInverse.injective (g := fun w => (opField w, w.extractLsb' 0 12)) fun p =>
    Prod.ext (opField_wordWithLow p) BitVec.extractLsb'_append_eq_right

/-- The words whose operation code is one of `ops`. -/
def wordsWithOps (ops : List (BitVec 4)) : List Word := (ops ×ˢ allBitVecs 12).map wordWithLow

theorem mem_wordsWithOps {ops : List (BitVec 4)} {w : Word} : w ∈ wordsWithOps ops ↔ opField w ∈ ops := by
  constructor
  · intro hw
    obtain ⟨p, hp, rfl⟩ := List.mem_map.mp hw
    rw [opField_wordWithLow]
    exact (List.mem_product.mp hp).1
  · intro hop
    exact List.mem_map.mpr ⟨_, List.mem_product.mpr ⟨hop, mem_allBitVecs _⟩, wordWithLow_fields w⟩

theorem nodup_wordsWithOps {ops : List (BitVec 4)} (h : ops.Nodup) : (wordsWithOps ops).Nodup :=
  (h.product (nodup_allBitVecs 12)).map wordWithLow_injective

theorem length_wordsWithOps (ops : List (BitVec 4)) : (wordsWithOps ops).length = ops.length * 4096 := by
  rw [wordsWithOps, List.length_map, List.length_product, length_allBitVecs]
  norm_num

/-- The seven commands of format N. -/
def formatNCommands : List Instr := [.nop, .crcInit, .crcGet, .crcChk, .fsCommit, .fsClear, .fsStat]

/-- The commands of format N, and the three of format B with each operand. -/
def allCommands : List Instr :=
  formatNCommands ++
    ((allBitVecs 8).map Instr.crcUpd ++ ((allBitVecs 8).map Instr.fsPush ++ (allBitVecs 8).map Instr.fsPeek))

theorem mem_allCommands (i : Instr) : i ∈ allCommands := by
  cases i <;> simp [allCommands, formatNCommands]

theorem nodup_allCommands : allCommands.Nodup := by
  have hmap {command : Byte → Instr} (h : Function.Injective command) : ((allBitVecs 8).map command).Nodup :=
    (nodup_allBitVecs 8).map h
  have hupd := hmap fun _ _ => Instr.crcUpd.inj
  have hpush := hmap fun _ _ => Instr.fsPush.inj
  have hpeek := hmap fun _ _ => Instr.fsPeek.inj
  refine List.Nodup.append (by decide) (hupd.append (hpush.append hpeek ?_) ?_) ?_ <;>
    simp [List.Disjoint, formatNCommands]

theorem encode_injective : Function.Injective encode := fun i j h => by
  simpa using congrArg decode h

/-- The legal words. -/
def legalWords : List Word := allCommands.map encode

theorem mem_legalWords {w : Word} : w ∈ legalWords ↔ ∃ i, decode w = .ok i := by
  constructor
  · intro hw
    obtain ⟨i, -, rfl⟩ := List.mem_map.mp hw
    exact ⟨i, Machine.decode_encode i⟩
  · rintro ⟨i, hi⟩
    exact List.mem_map.mpr ⟨i, mem_allCommands i, encode_of_decode hi⟩

theorem nodup_legalWords : legalWords.Nodup := nodup_allCommands.map encode_injective

theorem length_legalWords : legalWords.length = 775 := by
  simp [legalWords, allCommands, formatNCommands]

/-- The illegal words. -/
def illegalWords : List Word := (allBitVecs 16).filter (· ∉ legalWords)

theorem mem_illegalWords {w : Word} : w ∈ illegalWords ↔ w ∉ legalWords := by
  simp [illegalWords]

theorem error_of_mem_illegalWords {w : Word} (hw : w ∈ illegalWords) : ∃ why, decode w = .error why := by
  cases h : decode w with
  | ok i => exact absurd (mem_legalWords.mpr ⟨i, h⟩) (mem_illegalWords.mp hw)
  | error why => exact ⟨why, rfl⟩

theorem nodup_legalWords_append_illegalWords : (legalWords ++ illegalWords).Nodup :=
  nodup_legalWords.append ((nodup_allBitVecs 16).filter _) fun _ hl hi => mem_illegalWords.mp hi hl

theorem mem_legalWords_append_illegalWords (w : Word) : w ∈ legalWords ++ illegalWords := by
  rw [List.mem_append, mem_illegalWords]
  exact em _

theorem length_illegalWords : illegalWords.length = 64761 := by
  have hall : (legalWords ++ illegalWords).Perm (allBitVecs 16) :=
    (List.perm_ext_iff_of_nodup nodup_legalWords_append_illegalWords (nodup_allBitVecs 16)).mpr fun w =>
      iff_of_true (mem_legalWords_append_illegalWords w) (mem_allBitVecs w)
  have hlen := hall.length_eq
  rw [List.length_append, length_legalWords, length_allBitVecs] at hlen
  omega

end Sys2Proof

namespace Sys2Proof.Machine

theorem runWord_of_error {w : Word} (h : ∃ why, decode w = .error why) (s : State) :
    runWord w s = .next (s.addRsp (.err .illegal)) := by
  obtain ⟨why, hwhy⟩ := h
  simp only [runWord, hwhy]
  rfl

/-- Settles O4: a word illegal by a field by the decoding procedure; the counts by lists of the words. -/
theorem reservedWordsAreIllegalAndCounted : Obligations.ReservedWordsAreIllegalAndCounted :=
  ⟨fun _ s hw => runWord_of_error (decode_of_illegalFields hw) s,
    ⟨wordsWithOps reservedOps, nodup_wordsWithOps (by decide), length_wordsWithOps _, fun _ => mem_wordsWithOps⟩,
    legalWords, illegalWords, nodup_legalWords_append_illegalWords, mem_legalWords_append_illegalWords,
    length_legalWords, length_illegalWords, fun _ => mem_legalWords.mp, fun _ => error_of_mem_illegalWords⟩

end Sys2Proof.Machine
end

section
/-! The frame of 30_encoding.md R60. The validator by the last two bytes (40_crc.md R96) and by the residue (R101), through
what the bit step keeps: it is injective, fixes zero, and shifts while the bits that leave are zero (R90, R102). -/

namespace Sys2Proof.Machine

@[simp] theorem le16_lo8_hi8 (w : Word) : le16 (lo8 w) (hi8 w) = w := by
  ext k hk
  rcases lt_or_ge k 8 with hlow | hhigh
  · simp [le16, zext16, lo8, hi8, hlow, hk]
  · simp [le16, zext16, lo8, hi8, Nat.not_lt.mpr hhigh, hk, show k - 8 < 8 by omega, Nat.add_sub_cancel' hhigh]

@[simp] theorem toLE16_le16 (x y : Byte) : toLE16 (le16 x y) = [x, y] := by
  have hlo : lo8 (le16 x y) = x := by
    ext k hk
    simp [lo8, le16, zext16, hk, show k < 16 by omega]
  have hhi : hi8 (le16 x y) = y := by
    ext k hk
    simp [hi8, le16, zext16, hk, show 8 + k < 16 by omega]
  rw [toLE16, hlo, hhi]

/-- The feedback alone decides bit 15: the shift is logical. -/
theorem getLsbD_crcBit_15 (a : Word) : (crcBit a).getLsbD 15 = a.getLsbD 0 := by
  unfold crcBit
  split <;> simp_all

theorem crcBit_of_even {a : Word} (h : a.getLsbD 0 = false) : crcBit a = a >>> 1 := by
  rw [crcBit, h]
  rfl

theorem crcBit_injective : Function.Injective crcBit := by
  intro a b h
  have hbit : a.getLsbD 0 = b.getLsbD 0 := by rw [← getLsbD_crcBit_15, h, getLsbD_crcBit_15]
  have hshift : a >>> 1 = b >>> 1 := by
    unfold crcBit at h
    rw [hbit] at h
    split at h
    · exact (BitVec.xor_left_inj Config.poly).mp h
    · exact h
  ext k hk
  cases k with
  | zero => exact hbit
  | succ k =>
    have hk' := congrArg (·.getLsbD k) hshift
    simpa [Nat.add_comm 1, hk] using hk'

theorem crcBit_iterate_eq_zero {k : Nat} {a : Word} : crcBit^[k] a = 0#16 ↔ a = 0#16 :=
  (crcBit_injective.iterate k).eq_iff' (Function.iterate_fixed (by decide) k)

/-- Nothing is fed back while the low bits are zero. -/
theorem crcBit_iterate_shiftLeft (d : Byte) {k : Nat} (hk : k ≤ 8) : crcBit^[k] (zext16 d <<< k) = zext16 d := by
  induction k with
  | zero => simp
  | succ k ih =>
    have hstep : crcBit (zext16 d <<< (k + 1)) = zext16 d <<< k := by
      rw [crcBit_of_even (by simp)]
      ext j hj
      rcases Nat.lt_or_ge j 15 with hlow | htop
      · simp [zext16, Nat.add_comm 1, show j + 1 < 16 by omega]
      · simp [zext16, show ¬ 1 + j < 16 by omega, BitVec.getLsbD_of_ge d (j - k) (by omega)]
    rw [Function.iterate_succ_apply, hstep, ih (by omega)]

/-- Two more bytes bring the accumulator to zero exactly when they are its own, low byte first. -/
theorem crcByte_crcByte_eq_zero {a : Word} {x y : Byte} : crcByte (crcByte a x) y = 0#16 ↔ a = le16 x y :=
  calc crcByte (crcByte a x) y = 0#16 ↔ crcByte a x = zext16 y := by
        rw [crcByte, crcBit_iterate_eq_zero, BitVec.xor_eq_zero_iff]
    _ ↔ crcBit^[8] (a ^^^ zext16 x) = crcBit^[8] (zext16 y <<< 8) := by
        rw [crcBit_iterate_shiftLeft y le_rfl, crcByte]
    _ ↔ a ^^^ zext16 x = zext16 y <<< 8 := (crcBit_injective.iterate 8).eq_iff
    _ ↔ a = le16 x y := by
        rw [le16, ← BitVec.xor_right_inj (zext16 x), BitVec.xor_comm a, ← BitVec.xor_assoc, BitVec.xor_self,
          BitVec.zero_xor]

theorem computeCRC16_append (bs cs : List Byte) : computeCRC16 (bs ++ cs) = crcFold (computeCRC16 bs) cs :=
  List.foldl_append

theorem exists_eq_append_pair {f : List Byte} (h : 2 ≤ f.length) : ∃ body x y, f = body ++ [x, y] := by
  obtain ⟨x, y, hxy⟩ := List.length_eq_two.mp (show (f.drop (f.length - 2)).length = 2 by simp; omega)
  exact ⟨f.take (f.length - 2), x, y, by rw [← hxy, List.take_append_drop]⟩

theorem validateCRC_append_pair (body : List Byte) (x y : Byte) :
    validateCRC (body ++ [x, y]) = true ↔ body ≠ [] ∧ computeCRC16 body = le16 x y := by
  cases body <;> simp [validateCRC]

theorem validateCRC_iff_residue (f : List Byte) :
    validateCRC f = true ↔ 3 ≤ f.length ∧ computeCRC16 f = 0x0000#16 := by
  rcases lt_or_ge f.length 2 with hshort | hlong
  · simp [validateCRC, show f.length < 3 by omega]
  · obtain ⟨body, x, y, rfl⟩ := exists_eq_append_pair hlong
    have hlen : 3 ≤ (body ++ [x, y]).length ↔ body ≠ [] := by
      cases body <;> simp
    rw [validateCRC_append_pair, hlen, computeCRC16_append]
    exact and_congr_right' crcByte_crcByte_eq_zero.symm

/-- Settles O16: the last two bytes of a frame are the CRC of the others, low byte first. -/
theorem frameIsBodyThenItsCrc : Obligations.FrameIsBodyThenItsCrc := by
  intro f
  rw [isFrame, Bool.and_eq_true, decide_eq_true_iff]
  constructor
  · rintro ⟨hlen, hvalid⟩
    obtain ⟨body, x, y, rfl⟩ := exists_eq_append_pair (f := f) (by simp at hlen; omega)
    obtain ⟨-, hcrc⟩ := (validateCRC_append_pair body x y).mp hvalid
    exact ⟨body, by simpa using hlen, by rw [hcrc, toLE16_le16]⟩
  · rintro ⟨body, hlen, rfl⟩
    refine ⟨by simpa [toLE16] using hlen, (validateCRC_append_pair body _ _).mpr ⟨?_, (le16_lo8_hi8 _).symm⟩⟩
    rintro rfl
    simp at hlen

end Sys2Proof.Machine
end

section
/-! SUPPORT. No command reads or writes the words yet to come, so a run over the words of a list of commands is that list,
whatever stands behind them (20_memory.md R51). -/

namespace Sys2Proof.Machine

theorem exec_withWords {i : Instr} {s t : State} (h : exec i s = .next t) (ws : List Word) :
    exec i (s.withWords ws) = .next (t.withWords ws) := by
  cases i with
  | fsPush d =>
    by_cases hfull : s.bufCap = some s.buf.length
    · obtain rfl : _ = t := by simpa [exec_fsPush_full d hfull] using h
      exact exec_fsPush_full d hfull
    · obtain rfl : _ = t := by simpa [exec_fsPush_room d hfull] using h
      exact exec_fsPush_room d hfull
  | fsPeek k =>
    obtain ⟨r, hr⟩ := exec_of_writesNothing (.inr (.inr (.inr (.inr ⟨k, rfl⟩)))) s
    obtain rfl : s.addRsp r = t := by simpa [hr s (.refl s)] using h
    exact hr (s.withWords ws) ⟨rfl, rfl, rfl, rfl⟩
  | nop | crcInit | crcUpd | crcGet | crcChk | fsCommit | fsClear | fsStat =>
    obtain rfl := Host.Outcome.next.inj h
    rfl

theorem runWord_withWords {w : Word} {s t : State} (h : runWord w s = .next t) (ws : List Word) :
    runWord w (s.withWords ws) = .next (t.withWords ws) := by
  rcases runWord_cases w s with ⟨i, hi, hrun⟩ | ⟨why, hwhy, hrun⟩
  · simp only [runWord, hi]
    exact exec_withWords (hrun ▸ h) ws
  · obtain rfl : _ = t := by simpa [hrun] using h
    exact runWord_of_error ⟨why, hwhy⟩ _

/-- A run over the words `ws` performs them and leaves those behind them. -/
theorem runSteps_withWords (s : State) (ws later : List Word) :
    runSteps ws.length (s.withWords (ws ++ later)) = .next ((afterWords s ws).withWords later) := by
  induction ws generalizing s with
  | nil => rfl
  | cons w ws ih =>
    obtain ⟨t, ht⟩ := runWord_total w s
    have hstep : step (s.withWords (w :: ws ++ later)) = .next (t.withWords (ws ++ later)) :=
      runWord_withWords ht (ws ++ later)
    rw [List.length_cons, runSteps_succ hstep, ih, afterWords_cons, afterWord_of_next ht]

theorem runSteps_pseudoWords (p : Pseudo) (s : State) (later : List Word) :
    runSteps (pseudoWords p).length (s.withWords (pseudoWords p ++ later)) =
      .next ((afterCommands s (expandPseudo p)).withWords later) :=
  runSteps_withWords s (pseudoWords p) later

end Sys2Proof.Machine
end

section
/-! 30_encoding.md R73: the pseudo-instructions, by what their repeated command does to a whole list of bytes. -/

namespace Sys2Proof.Machine

theorem afterCommands_singleton_of_exec {i : Instr} {s t : State} (h : exec i s = .next t) : afterCommands s [i] = t :=
  afterCommands_cons_of_exec h []

theorem afterCommands_crcUpds {s : State} {n : Nat} (hcnt : s.cnt = cntOf n) (bs : List Byte) :
    afterCommands s (bs.map .crcUpd) =
      { s with acc := crcFold s.acc bs, cnt := cntOf (n + bs.length),
               rsps := s.rsps ++ List.replicate bs.length .ok } := by
  induction bs generalizing s n with
  | nil => simp [← hcnt, crcFold]
  | cons d bs ih =>
    have hcnt' : (((s.setAcc (crcByte s.acc d)).setCnt (cntSucc s.cnt)).addRsp .ok).cnt = cntOf (n + 1) := by
      simp [hcnt, cntSucc_cntOf]
    rw [List.map_cons, afterCommands_cons_of_exec (exec_crcUpd d s), ih hcnt']
    simp [State.setAcc, State.setCnt, State.addRsp, crcFold, List.replicate_succ, Nat.add_right_comm, ← Nat.add_assoc]

theorem afterCommands_fsPushes {s : State} {bs : List Byte}
    (hroom : ∀ n, s.bufCap = some n → s.buf.length + bs.length ≤ n) :
    afterCommands s (bs.map .fsPush) =
      { s with buf := s.buf ++ bs, rsps := s.rsps ++ List.replicate bs.length .ok } := by
  induction bs generalizing s with
  | nil => simp
  | cons d bs ih =>
    have hfree : s.bufCap ≠ some s.buf.length := fun hfull => by
      simpa using hroom _ hfull
    rw [List.map_cons, afterCommands_cons_of_exec (exec_fsPush_room d hfree),
      ih fun n hn => by simpa [Nat.add_assoc, Nat.add_comm 1] using hroom n hn]
    simp [State.setBuf, State.addRsp, List.replicate_succ]

/-- The message of `bs`, whole: `CRC_INIT`, then `CRC_UPD` of each byte. -/
theorem afterCommands_message (s : State) (bs : List Byte) :
    afterCommands s (.crcInit :: bs.map .crcUpd) =
      { s with acc := computeCRC16 bs, cnt := cntOf bs.length,
               rsps := s.rsps ++ List.replicate (bs.length + 1) .ok } := by
  rw [afterCommands_cons_of_exec (exec_crcInit s), afterCommands_crcUpds (n := 0) rfl]
  simp [State.setAcc, State.setCnt, State.addRsp, computeCRC16, List.replicate_succ]

/-- The test of `CRC_CHK` after a message is the source's validator (40_crc.md R109). -/
theorem crcChk_verdict (bs : List Byte) :
    (cntOf bs.length == 3 && computeCRC16 bs == 0#16) = validateCRC bs := by
  have hcnt : cntOf bs.length = 3 ↔ 3 ≤ bs.length := by
    rw [Fin.ext_iff, cntOf_val]
    simp
  rw [Bool.eq_iff_iff, validateCRC_iff_residue, Bool.and_eq_true, beq_iff_eq, beq_iff_eq, hcnt]

/-- Settles O50: each expansion is one run of commands; the verdict of `VALIDATE` is the validator's by the residue. -/
theorem pseudoInstructionsComputeTheSourceFunctions : Obligations.PseudoInstructionsComputeTheSourceFunctions := by
  refine ⟨fun s later bs => ?_, fun s later bs => ?_, fun s later bs hroom => ?_, fun s later => ?_⟩ <;>
    rw [runSteps_pseudoWords, expandPseudo]
  · rw [afterCommands_append, afterCommands_message, afterCommands_singleton_of_exec (exec_crcGet _)]
    rfl
  · rw [afterCommands_append, afterCommands_message, afterCommands_singleton_of_exec (exec_crcChk _), crcChk_verdict]
    rfl
  · rw [afterCommands_append, afterCommands_fsPushes hroom, afterCommands_singleton_of_exec (exec_fsCommit _)]
    rfl
  · rw [afterCommands_singleton_of_exec (exec_fsClear s)]
    rfl

end Sys2Proof.Machine
end

section
/-! 30_encoding.md R70: one response a command, of the kind its row gives. -/

namespace Sys2Proof.Machine

theorem four_le_length_of_mem_commitLoop_frames (n : Nat) (b f : List Byte) (hf : f ∈ (commitLoop n b).frames) :
    4 ≤ f.length := by
  induction n generalizing b with
  | zero => contradiction
  | succ n ih =>
    by_cases hs : b.length < 4
    · rw [commitLoop_short _ hs] at hf
      contradiction
    · simp only [commitLoop, Config.minLen, hs, if_false] at hf
      cases hp : findPrefix b with
      | none => simp [hp] at hf
      | some i =>
        simp only [hp, List.mem_cons] at hf
        rcases hf with rfl | hf
        · obtain ⟨hi, hle, -⟩ := findPrefix_some hp
          simpa [List.length_take] using ⟨hi, hi.trans hle⟩
        · exact ih _ hf

/-- Settles O7: command by command, by its next state; an emitted frame has a length that was found. -/
theorem everyCommandReturnsOneResponse : Obligations.EveryCommandReturnsOneResponse := by
  refine ⟨fun i s => ?_, fun w s hw => ?_⟩
  · cases i with
    | nop | crcInit | crcUpd | fsClear => exact ⟨_, _, rfl, rfl, rfl⟩
    | fsPush d =>
      by_cases hfull : s.bufCap = some s.buf.length
      · exact ⟨_, _, exec_fsPush_full d hfull, rfl, .inr rfl⟩
      · exact ⟨_, _, exec_fsPush_room d hfull, rfl, .inl rfl⟩
    | crcGet => exact ⟨_, _, exec_crcGet s, rfl, _, rfl⟩
    | crcChk => exact ⟨_, _, exec_crcChk s, rfl, _, rfl⟩
    | fsCommit =>
      exact ⟨_, _, exec_fsCommit s, rfl, _, _, rfl, four_le_length_of_mem_commitLoop_frames _ s.buf⟩
    | fsStat => exact ⟨_, _, exec_fsStat s, rfl, _, _, _, rfl⟩
    | fsPeek k =>
      rcases lt_or_ge k.toNat s.buf.length with hheld | hbeyond
      · exact ⟨_, _, exec_fsPeek_held hheld, rfl, .inl ⟨_, rfl⟩⟩
      · exact ⟨_, _, exec_fsPeek_beyond hbeyond, rfl, .inr rfl⟩
  · rcases runWord_cases w s with ⟨i, hi, -⟩ | ⟨_, -, hrun⟩
    · exact absurd hi (hw i)
    · exact ⟨_, hrun, rfl⟩

end Sys2Proof.Machine
end

section
/-! 40_crc.md R110: no command of one unit reads or writes the other's state, but that `FS_STAT` reads `CNT`. -/

namespace Sys2Proof.Machine

/-- A command of unit S carries `ACC` and `CNT` through whatever they hold; `FS_STAT` alone looks at `CNT`. -/
theorem exec_unitS {i : Instr} (hi : inUnitS i = true) (s : State) :
    ∃ t, exec i s = .next t ∧ t.acc = s.acc ∧ t.cnt = s.cnt ∧
      ∀ a c, (i = .fsStat → c = s.cnt) →
        exec i { s with acc := a, cnt := c } = .next { t with acc := a, cnt := c } := by
  cases i with
  | fsPush d =>
    by_cases hfull : s.bufCap = some s.buf.length
    · exact ⟨_, exec_fsPush_full d hfull, rfl, rfl, fun a c _ =>
        exec_fsPush_full d (s := { s with acc := a, cnt := c }) hfull⟩
    · exact ⟨_, exec_fsPush_room d hfull, rfl, rfl, fun a c _ =>
        exec_fsPush_room d (s := { s with acc := a, cnt := c }) hfull⟩
  | fsCommit | fsClear => exact ⟨_, rfl, rfl, rfl, fun _ _ _ => rfl⟩
  | fsStat =>
    refine ⟨_, exec_fsStat s, rfl, rfl, fun a c hc => ?_⟩
    obtain rfl := hc rfl
    rfl
  | fsPeek k =>
    rcases lt_or_ge k.toNat s.buf.length with hheld | hbeyond
    · exact ⟨_, exec_fsPeek_held hheld, rfl, rfl, fun a c _ =>
        exec_fsPeek_held (s := { s with acc := a, cnt := c }) hheld⟩
    · exact ⟨_, exec_fsPeek_beyond hbeyond, rfl, rfl, fun a c _ =>
        exec_fsPeek_beyond (s := { s with acc := a, cnt := c }) hbeyond⟩
  | nop | crcInit | crcUpd | crcGet | crcChk => contradiction

theorem exec_unitC {i : Instr} (hi : inUnitC i = true) (s : State) :
    ∃ t, exec i s = .next t ∧ t.buf = s.buf ∧ t.ovf = s.ovf ∧
      ∀ m o, exec i { s with buf := m, ovf := o } = .next { t with buf := m, ovf := o } := by
  cases i with
  | crcInit | crcUpd | crcGet | crcChk => exact ⟨_, rfl, rfl, rfl, fun _ _ => rfl⟩
  | nop | fsPush | fsCommit | fsClear | fsStat | fsPeek => contradiction

theorem exec_unitS_keeps {i : Instr} {s t : State} (ht : exec i s = .next t) (hi : inUnitS i = true) :
    t.acc = s.acc ∧ t.cnt = s.cnt := by
  obtain ⟨t', ht', hacc, hcnt, -⟩ := exec_unitS hi s
  obtain rfl := Host.Outcome.next.inj (ht'.symm.trans ht)
  exact ⟨hacc, hcnt⟩

/-- Settles O28: command by command, each unit carrying the other's elements through. -/
theorem unitsAreIndependent : Obligations.UnitsAreIndependent := by
  refine ⟨fun i s t hi ht => ?_, fun i s t hi ht => ?_⟩
  · obtain ⟨t', ht', hcarries⟩ := exec_unitC hi s
    obtain rfl := Host.Outcome.next.inj (ht'.symm.trans ht)
    exact hcarries
  · obtain ⟨t', ht', hacc, hcnt, hcarries⟩ := exec_unitS hi s
    obtain rfl := Host.Outcome.next.inj (ht'.symm.trans ht)
    refine ⟨hacc, hcnt, fun a => ?_, fun hstat c => ?_⟩
    · simpa only [hcnt] using hcarries a s.cnt fun _ => rfl
    · simpa only [hacc] using hcarries s.acc c (absurd · hstat)

end Sys2Proof.Machine
end

section
/-! 40_crc.md R99, R107 and R109: the message absorbed since the last `CRC_INIT` or reset, as an invariant of every list of
commands without `CRC_INIT`, and what `CRC_GET` and `CRC_CHK` answer of it. -/

namespace Sys2Proof.Machine

/-- Unit C holds the message `m`: its CRC in `ACC` (10_state.md R21) and its length, up to 3, in `CNT` (R22). -/
structure HoldsMessage (s : State) (m : List Byte) : Prop where
  acc : s.acc = computeCRC16 m
  cnt : s.cnt = cntOf m.length

theorem holdsMessage_resetWith (cap : Config.BufCap) : HoldsMessage (State.resetWith cap) [] := ⟨rfl, rfl⟩

theorem absorbedBytes_cons (i : Instr) (is : List Instr) :
    absorbedBytes (i :: is) = absorbedBytes [i] ++ absorbedBytes is := by
  cases i <;> rfl

theorem computeCRC16_concat (m : List Byte) (d : Byte) : computeCRC16 (m ++ [d]) = crcByte (computeCRC16 m) d :=
  computeCRC16_append m [d]

theorem HoldsMessage.of_exec {i : Instr} {s t : State} {m : List Byte} (hs : HoldsMessage s m) (hi : i ≠ .crcInit)
    (ht : exec i s = .next t) : HoldsMessage t (m ++ absorbedBytes [i]) := by
  obtain ⟨hacc, hcnt⟩ := hs
  cases i with
  | crcInit => contradiction
  | crcUpd d =>
    obtain rfl := Host.Outcome.next.inj ((exec_crcUpd d s).symm.trans ht)
    constructor
    · simp [absorbedBytes, computeCRC16_concat, hacc]
    · simp [absorbedBytes, cntSucc_cntOf, hcnt]
  | nop | crcGet | crcChk =>
    obtain rfl := Host.Outcome.next.inj ht
    simp only [absorbedBytes, List.append_nil]
    exact ⟨hacc, hcnt⟩
  | fsPush | fsCommit | fsClear | fsStat | fsPeek =>
    obtain ⟨hacc', hcnt'⟩ := exec_unitS_keeps ht rfl
    simp only [absorbedBytes, List.append_nil]
    exact ⟨hacc'.trans hacc, hcnt'.trans hcnt⟩

theorem HoldsMessage.of_afterCommands {s : State} {m : List Byte} (hs : HoldsMessage s m) {is : List Instr}
    (his : .crcInit ∉ is) : HoldsMessage (afterCommands s is) (m ++ absorbedBytes is) := by
  induction is generalizing s m with
  | nil => simpa [absorbedBytes] using hs
  | cons i is ih =>
    obtain ⟨hi, his'⟩ := not_or.mp (mt List.mem_cons.mpr his)
    obtain ⟨t, ht, -⟩ := exec_total i s
    rw [afterCommands_cons_of_exec ht, absorbedBytes_cons, ← List.append_assoc]
    exact ih (hs.of_exec (Ne.symm hi) ht) his'

/-- A message begins with `CRC_INIT` or reset (10_state.md R21). -/
theorem holdsMessage_since_start {s t : State} {cap : Config.BufCap} {is : List Instr} (his : .crcInit ∉ is)
    (ht : t = afterCommands s (.crcInit :: is) ∨ t = afterCommands (State.resetWith cap) is) :
    HoldsMessage t (absorbedBytes is) := by
  rcases ht with rfl | rfl
  · rw [afterCommands_cons_of_exec (exec_crcInit s)]
    exact HoldsMessage.of_afterCommands (m := []) ⟨rfl, rfl⟩ his
  · exact (holdsMessage_resetWith cap).of_afterCommands his

theorem HoldsMessage.crcGet_answer {t : State} {m : List Byte} (h : HoldsMessage t m) :
    exec .crcGet t = .next (t.addRsp (.crc (computeCRC16 m))) := by
  rw [exec_crcGet, h.acc]

theorem HoldsMessage.crcChk_answer {t : State} {m : List Byte} (h : HoldsMessage t m) :
    exec .crcChk t = .next (t.addRsp (.valid (validateCRC m))) := by
  rw [exec_crcChk, h.acc, h.cnt, crcChk_verdict]

/-- Settles O26: each command extends the message by what it absorbs, by induction on the commands. -/
theorem accumulatorHoldsTheStreamedCrc : Obligations.AccumulatorHoldsTheStreamedCrc := by
  refine ⟨computeCRC16_append, computeCRC16_concat, fun s cap t is his ht => ?_⟩
  obtain ⟨hacc, hcnt⟩ := holdsMessage_since_start his ht
  exact ⟨hacc, by rw [hcnt, cntOf_val]⟩

/-- Settles O27: the test of `CNT` and `ACC` on the message held is the validator's, by the residue. -/
theorem crcChkEqualsTheValidator : Obligations.CrcChkEqualsTheValidator :=
  fun _ _ _ _ his ht => (holdsMessage_since_start his ht).crcChk_answer

/-- Settles O24: the accumulator answered is the CRC of the message held. -/
theorem crcGetAnswersTheAccumulator : Obligations.CrcGetAnswersTheAccumulator :=
  ⟨decode_encode .crcGet, exec_crcGet, fun _ _ _ _ his ht => (holdsMessage_since_start his ht).crcGet_answer, rfl,
    by decide +kernel⟩

end Sys2Proof.Machine
end

section
/-! 40_crc.md R90, R91 and R102: the bit step bit by bit; so it is linear, with an inverse that reads the feedback back from
bit 15; and the byte step through it. -/

namespace Sys2Proof.Machine

theorem getLsbD_crcBit (a : Word) {k : Nat} (hk : k < 16) :
    (crcBit a).getLsbD k = ((k < 15 && a.getLsbD (k + 1)) ^^ (a.getLsbD 0 && Config.poly.getLsbD k)) := by
  have hshift : (a >>> 1).getLsbD k = (decide (k < 15) && a.getLsbD (k + 1)) := by
    rw [BitVec.getLsbD_ushiftRight, Nat.add_comm 1]
    rcases Nat.lt_or_ge k 15 with hlow | htop
    · simp [hlow]
    · simp [Nat.not_lt.mpr htop, BitVec.getLsbD_of_ge a (k + 1) (by omega)]
  unfold crcBit
  split <;> simp_all

/-- Settles O11: the shift and the feedback bit by bit; the examples by evaluation. -/
theorem bitStepShiftsAndFeedsBack : Obligations.BitStepShiftsAndFeedsBack :=
  ⟨fun a _ hk => getLsbD_crcBit a hk, by simp [crcBit]⟩

theorem crcByte_eq_iterate (a : Word) (d : Byte) : crcByte a d = crcBit^[8] (a ^^^ zext16 d) := rfl

theorem hi8_xor_zext16 (a : Word) (d : Byte) : hi8 (a ^^^ zext16 d) = hi8 a := by
  ext k hk
  simp [hi8, zext16]

theorem lo8_xor_zext16 (a : Word) (d : Byte) : lo8 (a ^^^ zext16 d) = lo8 a ^^^ d := by
  ext k hk
  simp [lo8, zext16, hk, show k < 16 by omega]

/-- Settles O12: the eight steps are the definition's; the byte reaches the low half alone, bit by bit. -/
theorem byteStepIsEightBitSteps : Obligations.ByteStepIsEightBitSteps :=
  ⟨crcByte_eq_iterate, fun a d => ⟨hi8_xor_zext16 a d, lo8_xor_zext16 a d⟩,
    by simp [crcByte, crcBit, zext16]⟩

theorem crcBit_xor (a b : Word) : crcBit (a ^^^ b) = crcBit a ^^^ crcBit b := by
  apply BitVec.eq_of_getLsbD_eq
  intro k hk
  simp only [BitVec.getLsbD_xor, getLsbD_crcBit _ hk, Bool.and_xor_distrib_left, Bool.and_xor_distrib_right,
    Bool.xor_assoc, Bool.xor_left_comm]

@[simp] theorem crcBit_iterate_zero (k : Nat) : crcBit^[k] 0#16 = 0#16 := crcBit_iterate_eq_zero.mpr rfl

theorem crcBit_iterate_xor (k : Nat) (a b : Word) : crcBit^[k] (a ^^^ b) = crcBit^[k] a ^^^ crcBit^[k] b := by
  induction k generalizing a b with
  | zero => rfl
  | succ k ih => simp only [Function.iterate_succ_apply, crcBit_xor, ih]

/-- The inverse of the bit step (40_crc.md R102): bit 15 of `r` says whether the feedback was applied, so it is the bit that
was shifted out. -/
def crcBitBack (r : Word) : Word :=
  ((r ^^^ (if r.getLsbD 15 then 0xA001#16 else 0#16)) <<< 1) ||| (if r.getLsbD 15 then 1#16 else 0#16)

theorem getLsbD_crcBitBack_zero (r : Word) : (crcBitBack r).getLsbD 0 = r.getLsbD 15 := by
  unfold crcBitBack
  split <;> simp_all

theorem getLsbD_crcBitBack_succ (r : Word) {k : Nat} (hk : k < 15) :
    (crcBitBack r).getLsbD (k + 1) = (r.getLsbD k ^^ (r.getLsbD 15 && Config.poly.getLsbD k)) := by
  unfold crcBitBack
  cases r.getLsbD 15 <;> simp [BitVec.getLsbD_eq_getElem (show k < 16 by omega), show k + 1 < 16 by omega]

theorem crcBit_crcBitBack (r : Word) : crcBit (crcBitBack r) = r := by
  apply BitVec.eq_of_getLsbD_eq
  intro k hk
  rw [getLsbD_crcBit _ hk, getLsbD_crcBitBack_zero]
  rcases Nat.lt_or_eq_of_le (Nat.le_of_lt_succ hk) with hlow | rfl
  · simp [hlow, getLsbD_crcBitBack_succ r hlow]
  · simp

theorem crcBitBack_crcBit (a : Word) : crcBitBack (crcBit a) = a :=
  crcBit_injective (crcBit_crcBitBack (crcBit a))

theorem crcBit_bijective : Function.Bijective crcBit :=
  Function.bijective_iff_has_inverse.mpr ⟨crcBitBack, crcBitBack_crcBit, crcBit_crcBitBack⟩

theorem crcByte_bijective (d : Byte) : Function.Bijective fun a => crcByte a d :=
  (crcBit_bijective.iterate 8).comp (Function.Involutive.bijective fun a => by
    rw [BitVec.xor_assoc, BitVec.xor_self, BitVec.xor_zero])

theorem crcByte_zero_byte (a : Word) : crcByte a 0x00#8 = crcBit^[8] a := by
  rw [crcByte, zext16, BitVec.setWidth_zero, BitVec.xor_zero]

/-- Settles O17: linear bit by bit, bijective by the inverse; powers and the byte step by composition. -/
theorem bitStepIsALinearBijection : Obligations.BitStepIsALinearBijection :=
  ⟨crcBit_xor, fun r => ⟨crcBit_crcBitBack r, crcBitBack_crcBit r⟩, crcBit_iterate_zero 1,
    fun k => ⟨crcBit_bijective.iterate k, crcBit_iterate_zero k, crcBit_iterate_xor k⟩, crcByte_bijective,
    fun _ _ => (crcByte_zero_byte _).symm⟩

end Sys2Proof.Machine
end

section
/-! 40_crc.md R94 and R100: a word as its two bytes, and the table form of the byte step. -/

namespace Sys2Proof.Machine

theorem toNat_eq_lo8_hi8 (w : Word) : w.toNat = (lo8 w).toNat + 256 * (hi8 w).toNat := by
  simp only [lo8, hi8, BitVec.extractLsb'_toNat, Nat.shiftRight_eq_div_pow]
  omega

theorem toNat_le16 (x y : Byte) : (le16 x y).toNat = x.toNat + 256 * y.toNat := by
  obtain ⟨hlo, hhi⟩ : lo8 (le16 x y) = x ∧ hi8 (le16 x y) = y := by simpa [toLE16] using toLE16_le16 x y
  rw [toNat_eq_lo8_hi8, hlo, hhi]

/-- Settles O15: `le16` undoes `toLE16` byte by byte; the low byte is the low digit of the number. -/
theorem lowByteFirstRoundTrip : Obligations.LowByteFirstRoundTrip :=
  ⟨le16_lo8_hi8, toLE16_le16, toNat_le16, fun _ => rfl, by decide +kernel⟩

theorem crcBit_iterate_zext16_shiftLeft (d : Byte) : crcBit^[8] (zext16 d <<< 8) = zext16 d :=
  crcBit_iterate_shiftLeft d le_rfl

/-- By linearity the two halves of a word go through the eight steps on their own: the low one into the table's entry, the
high one down unchanged. -/
theorem crcBit_iterate_eight (w : Word) : crcBit^[8] w = zext16 (hi8 w) ^^^ crcTable (lo8 w) := by
  calc crcBit^[8] w = crcBit^[8] (le16 (lo8 w) (hi8 w)) := by rw [le16_lo8_hi8]
    _ = crcTable (lo8 w) ^^^ crcBit^[8] (zext16 (hi8 w) <<< 8) := crcBit_iterate_xor 8 _ _
    _ = zext16 (hi8 w) ^^^ crcTable (lo8 w) := by rw [crcBit_iterate_zext16_shiftLeft, BitVec.xor_comm]

theorem ushiftRight_eight (a : Word) : a >>> 8 = zext16 (hi8 a) := by
  ext k hk
  rcases Nat.lt_or_ge k 8 with hlow | hhigh
  · simp [zext16, hi8, hlow]
  · simp [zext16, hi8, Nat.not_lt.mpr hhigh, BitVec.getLsbD_of_ge a (8 + k) (by omega)]

theorem crcByte_eq_table (a : Word) (d : Byte) : crcByte a d = (a >>> 8) ^^^ crcTable (lo8 (a ^^^ zext16 d)) := by
  rw [crcByte, crcBit_iterate_eight, hi8_xor_zext16, ushiftRight_eight]

@[simp] theorem lo8_zext16 (d : Byte) : lo8 (zext16 d) = d := by
  ext k hk
  simp [lo8, zext16, hk, show k < 16 by omega]

theorem zext16_injective : Function.Injective zext16 := Function.LeftInverse.injective lo8_zext16

theorem crcTable_injective : Function.Injective crcTable := (crcBit_injective.iterate 8).comp zext16_injective

/-- An entry with a zero high byte is a low byte, which only a word with a zero low byte becomes in eight steps. -/
theorem hi8_crcTable_eq_zero {t : Byte} : hi8 (crcTable t) = 0x00#8 ↔ t = 0x00#8 := by
  constructor
  · intro h
    have hentry : crcTable t = zext16 (lo8 (crcTable t)) := by
      conv_lhs => rw [← le16_lo8_hi8 (crcTable t), h]
      simp [le16, zext16]
    rw [← crcBit_iterate_zext16_shiftLeft] at hentry
    have hword : le16 t 0x00#8 = le16 0x00#8 (lo8 (crcTable t)) := by
      have := (crcBit_injective.iterate 8) hentry
      simpa [le16, zext16] using this
    have hbytes := congrArg toLE16 hword
    simp only [toLE16_le16, List.cons.injEq] at hbytes
    exact hbytes.1
  · rintro rfl
    decide

/-- Settles O20: the table form by linearity on the two halves of a word; the entries differ as the bit step is injective. -/
theorem tableFormAgreesWithTheByteStep : Obligations.TableFormAgreesWithTheByteStep :=
  ⟨crcByte_eq_table, ushiftRight_eight, by decide, by decide, by decide, crcTable_injective,
    fun _ => hi8_crcTable_eq_zero⟩

end Sys2Proof.Machine
end

section
/-! 40_crc.md R92, R96 to R98 and R101: the CRC of a whole sequence by its accumulators, the validator by the last two bytes
and by the residue, and every change of a byte seen, since the byte step is injective in the accumulator and in the byte. -/

namespace Sys2Proof.Machine

theorem crcFold_eq_last_accumulator (bs : List Byte) (acc : Nat → Word)
    (hacc : ∀ k (h : k < bs.length), acc (k + 1) = crcByte (acc k) bs[k]) : crcFold (acc 0) bs = acc bs.length := by
  induction bs generalizing acc with
  | nil => rfl
  | cons d bs ih =>
    have hfirst : acc 1 = crcByte (acc 0) d := hacc 0 (Nat.zero_lt_succ _)
    calc crcFold (acc 0) (d :: bs) = crcFold (acc 1) bs := by rw [hfirst]; rfl
      _ = acc (d :: bs).length := ih (fun k => acc (k + 1)) fun k hk => hacc (k + 1) (Nat.succ_lt_succ hk)

/-- Settles O13: the fold goes through the accumulators in order, by induction on the sequence. -/
theorem wholeSequenceIsTheAccumulatorAsItStands : Obligations.WholeSequenceIsTheAccumulatorAsItStands :=
  ⟨fun bs acc hinit hacc => by rw [computeCRC16, ← crcFold_eq_last_accumulator bs acc hacc, hinit], rfl⟩

theorem validateCRC_short {f : List Byte} (h : f.length < 3) : validateCRC f = false := by
  simp [validateCRC, h]

theorem validateCRC_iff_trailing_number {f : List Byte} (h : 3 ≤ f.length) : validateCRC f = true ↔
    (computeCRC16 (f.take (f.length - 2))).toNat = f[f.length - 2].toNat + 256 * f[f.length - 1].toNat := by
  obtain ⟨body, x, y, rfl⟩ := exists_eq_append_pair (f := f) (by omega)
  have hbody : body ≠ [] := by
    rintro rfl
    simp at h
  rw [validateCRC_append_pair, ← BitVec.toNat_inj, toNat_le16]
  simp [hbody]

/-- Settles O14: the received value of the last two bytes as a number; the corner cases by evaluation. -/
theorem validatorComparesTheTrailingTwoBytes : Obligations.ValidatorComparesTheTrailingTwoBytes :=
  ⟨fun _ => validateCRC_short, fun _ => validateCRC_iff_trailing_number, by decide +kernel, rfl, rfl, rfl,
    by decide +kernel⟩

/-- Settles O18: the two bytes appended are the CRC of the body; without a body they are too few. -/
theorem appendedCrcValidates : Obligations.AppendedCrcValidates :=
  ⟨fun b hb => (validateCRC_append_pair b _ _).mpr ⟨hb, (le16_lo8_hi8 _).symm⟩, validateCRC_short (by decide)⟩

theorem crcFold_injective (bs : List Byte) : Function.Injective fun a => crcFold a bs := by
  induction bs with
  | nil => exact Function.injective_id
  | cons d bs ih => exact ih.comp (crcByte_bijective d).injective

theorem crcByte_data_injective (a : Word) : Function.Injective (crcByte a) := fun d d' h => by
  have hword : a ^^^ zext16 d = a ^^^ zext16 d' := crcBit_injective.iterate 8 h
  exact zext16_injective ((BitVec.xor_right_inj a).mp hword)

theorem computeCRC16_injective_in_each_byte (front back : List Byte) :
    Function.Injective fun d => computeCRC16 (front ++ d :: back) := fun d d' h => by
  simp only [computeCRC16_append] at h
  exact crcByte_data_injective _ (crcFold_injective back h)

theorem computeCRC16_set_ne {bs : List Byte} {i : Nat} (hi : i < bs.length) {v : Byte} (hv : v ≠ bs[i]) :
    computeCRC16 (bs.set i v) ≠ computeCRC16 bs := by
  have hbs : bs = bs.take i ++ bs[i] :: bs.drop (i + 1) := by simp
  intro h
  rw [List.set_eq_take_append_cons_drop, if_pos hi] at h
  exact hv (computeCRC16_injective_in_each_byte _ _ (h.trans (congrArg computeCRC16 hbs)))

theorem xor_one_shiftLeft_ne (d : Byte) {j : Nat} (hj : j < 8) : d ^^^ (1#8 <<< j) ≠ d := by
  intro h
  simpa [hj] using congrArg (·.getLsbD j) h

/-- Settles O19: a byte with a bit flipped is another byte, and any other byte at a position gives another CRC. -/
theorem singleBitFlipChangesTheCrc : Obligations.SingleBitFlipChangesTheCrc :=
  fun b i _ hi hj => computeCRC16_set_ne hi (xor_one_shiftLeft_ne b[i] hj)

theorem crcFold_zero_replicate (n : Nat) : crcFold 0x0000#16 (List.replicate n 0x00#8) = 0x0000#16 := by
  induction n with
  | zero => rfl
  | succ n ih =>
    have hstep : crcByte 0x0000#16 0x00#8 = 0x0000#16 := by simp [crcByte_zero_byte]
    rw [List.replicate_succ, crcFold, List.foldl_cons, hstep]
    exact ih

/-- Settles O21: the residue decides; zero bytes keep a zero accumulator at zero. -/
theorem residueDecidesValidity : Obligations.ResidueDecidesValidity := by
  refine ⟨validateCRC_iff_residue, ⟨by decide +kernel, rfl⟩, fun f n hf => ?_⟩
  obtain ⟨hlen, hcrc⟩ := (validateCRC_iff_residue f).mp hf
  refine (validateCRC_iff_residue _).mpr ⟨by rw [List.length_append]; omega, ?_⟩
  rw [computeCRC16_append, hcrc, crcFold_zero_replicate]

end Sys2Proof.Machine
end

section
/-! 40_crc.md R105, R106 and R108: the commands that write unit C's elements, and the residue test, each from any state. -/

namespace Sys2Proof.Machine

/-- Settles O22: by its next state, and as an idempotent command. -/
theorem crcInitStartsAMessage : Obligations.CrcInitStartsAMessage :=
  ⟨decode_encode .crcInit, exec_crcInit, fun _ _ _ ht hu =>
    Host.Outcome.next.inj (hu.symm.trans (exec_twice_of_idempotent (.inr (.inl rfl)) ht))⟩

theorem encode_crcUpd (d : Byte) : encode (.crcUpd d) = 0x2000#16 + d.setWidth 16 := by
  have hdisjoint : 0x2000#16 &&& d.setWidth 16 = 0#16 := by
    ext k hk
    rcases Nat.lt_or_ge k 8 with hlow | hhigh
    · have hzero : ∀ k < 8, (0x2000#16).getLsbD k = false := by decide
      simp [← BitVec.getLsbD_eq_getElem hk, hzero k hlow]
    · simp [BitVec.getLsbD_of_ge d k hhigh]
  rw [BitVec.add_eq_or_of_and_eq_zero _ _ hdisjoint]
  rfl

theorem cntSucc_eq_ite : ∀ c : Fin 4, cntSucc c = if c = 3 then 3 else c + 1 := by decide

/-- Settles O23: by its next state; the word by its two fields. -/
theorem crcUpdAbsorbsOneByte : Obligations.CrcUpdAbsorbsOneByte := by
  refine ⟨fun d => by rw [← encode_crcUpd, decode_encode], fun d s => ?_, crcByte_zero_byte, by decide +kernel⟩
  rw [exec_crcUpd, cntSucc_eq_ite]
  rfl

theorem exec_crcChk_eq_decide (s : State) :
    exec .crcChk s = .next (s.addRsp (.valid (decide (s.cnt = 3 ∧ s.acc = 0x0000#16)))) := by
  rw [exec_crcChk, Bool.decide_and]
  rfl

/-- Settles O25: by its next state; the example is a whole message, which `ACC` and `CNT` then hold. -/
theorem crcChkAnswersTheResidueTest : Obligations.CrcChkAnswersTheResidueTest := by
  refine ⟨decode_encode .crcChk, exec_crcChk_eq_decide, fun s hcnt => ?_, fun s t ht => ?_⟩
  · rw [exec_crcChk_eq_decide, decide_eq_false fun h => hcnt h.1]
    rfl
  · have hmessage : HoldsMessage t [0x01#8, 0x83#8, 0x02#8, 0xC0#8, 0xF1#8] :=
      holdsMessage_since_start (cap := none) (by decide) (.inl ht)
    have hcrc : computeCRC16 [0x01#8, 0x83#8, 0x02#8, 0xC0#8, 0xF1#8] = 0x0000#16 := by decide +kernel
    refine ⟨hmessage.acc.trans hcrc, ?_⟩
    rw [hmessage.crcChk_answer, (validateCRC_iff_residue _).mpr ⟨by decide, hcrc⟩]
    rfl

end Sys2Proof.Machine
end

section
/-! 41_splitter.md R122 and R140: `findPrefix` by its least candidate, and the one-pass scan, whose accumulator is the CRC of
the bytes read, so that it tests each candidate by the residue. -/

namespace Sys2Proof.Machine

theorem findPrefix_eq_none_iff {b : List Byte} :
    findPrefix b = none ↔ ∀ j, 4 ≤ j → j ≤ b.length → validateCRC (b.take j) = false := by
  simp only [findPrefix, List.find?_eq_none, Config.minLen, List.mem_range'_1, Bool.not_eq_true, and_imp]
  exact forall₂_congr fun j h4 => by rw [show j < 4 + (b.length + 1 - 4) ↔ j ≤ b.length by omega]

theorem findPrefix_eq_some_iff {b : List Byte} {i : Nat} :
    findPrefix b = some i ↔ 4 ≤ i ∧ i ≤ b.length ∧ validateCRC (b.take i) = true ∧
      ∀ j, 4 ≤ j → j < i → validateCRC (b.take j) = false := by
  simp only [findPrefix, List.find?_range'_eq_some, Config.minLen, List.mem_range'_1, Bool.not_eq_true']
  constructor
  · rintro ⟨hvalid, ⟨h4, hlt⟩, hleast⟩
    exact ⟨h4, by omega, hvalid, hleast⟩
  · rintro ⟨h4, hle, hvalid, hleast⟩
    exact ⟨hvalid, ⟨h4, by omega⟩, hleast⟩

theorem findPrefix_short {b : List Byte} (h : b.length < 4) : findPrefix b = none :=
  findPrefix_eq_none_iff.mpr fun _ h4 hle => absurd (h4.trans hle) (Nat.not_le.mpr h)

/-- Settles O30: the first candidate in increasing order is the least one. -/
theorem findPrefixIsTheLeastCandidate : Obligations.FindPrefixIsTheLeastCandidate :=
  ⟨fun _ _ => findPrefix_eq_some_iff, fun _ => findPrefix_eq_none_iff, fun _ => findPrefix_short⟩

theorem validateCRC_iff_residue_of_four_le {f : List Byte} (h : 4 ≤ f.length) :
    validateCRC f = true ↔ computeCRC16 f = 0x0000#16 := by
  rw [validateCRC_iff_residue]
  exact and_iff_right (by omega)

/-- The scan from where it has read `front`, no candidate so far having validated. -/
theorem onePassFrom_eq_findPrefix (front back : List Byte)
    (hfront : ∀ j, 4 ≤ j → j ≤ front.length → validateCRC ((front ++ back).take j) = false) :
    onePassFrom (computeCRC16 front) front.length back = findPrefix (front ++ back) := by
  induction back generalizing front with
  | nil =>
    refine (findPrefix_eq_none_iff.mpr fun j h4 hj => hfront j h4 ?_).symm
    simpa using hj
  | cons d back ih =>
    have hb : front ++ d :: back = (front ++ [d]) ++ back := List.append_cons front d back
    have hlen : (front ++ [d]).length = front.length + 1 := by simp
    have htake : (front ++ d :: back).take (front.length + 1) = front ++ [d] := by rw [hb, List.take_left' hlen]
    rw [onePassFrom, ← computeCRC16_concat, Config.minLen]
    split
    case isTrue h =>
      obtain ⟨h4, hcrc⟩ := h
      refine (findPrefix_eq_some_iff.mpr ⟨h4, by simp, ?_, fun j hj hlt => hfront j hj (Nat.le_of_lt_succ hlt)⟩).symm
      rwa [htake, validateCRC_iff_residue_of_four_le (hlen ▸ h4)]
    case isFalse h =>
      rw [← hlen, hb]
      refine ih (front ++ [d]) fun j h4 hj => ?_
      rw [← hb]
      rcases Nat.lt_or_eq_of_le (hlen ▸ hj) with hlt | rfl
      · exact hfront j h4 (Nat.le_of_lt_succ hlt)
      · rw [htake, Bool.eq_false_iff, ne_eq, validateCRC_iff_residue_of_four_le (hlen ▸ h4)]
        exact fun hcrc => h ⟨h4, hcrc⟩

/-- Settles O32: the scan from its start, by induction on what is yet to be read. -/
theorem onePassScanAgrees : Obligations.OnePassScanAgrees := by
  refine ⟨fun b => onePassFrom_eq_findPrefix [] b fun j h4 hj => ?_, fun b i h4 hi => ?_⟩
  · exact absurd (h4.trans hj) (by decide)
  · exact validateCRC_iff_residue_of_four_le (by rwa [List.length_take_of_le hi])

end Sys2Proof.Machine
end

section
/-! SUPPORT. `commit` by its three rounds (41_splitter.md R123, R124), with the induction they give; and the frames that no
shorter CRC-valid sequence opens, which are those with `findPrefix f = some f.length`. -/

namespace Sys2Proof.Machine

theorem commit_of_findPrefix_none {b : List Byte} (hlen : 4 ≤ b.length) (h : findPrefix b = none) :
    commit b = ⟨[], b.take (b.length - 3), b.drop (b.length - 3)⟩ := by
  obtain ⟨n, hn⟩ := Nat.exists_eq_add_of_le' (show 1 ≤ b.length by omega)
  simp only [commit, hn, commitLoop, h]
  exact if_neg (by simpa [← hn] using hlen)

theorem commit_of_findPrefix_some {b : List Byte} {i : Nat} (h : findPrefix b = some i) :
    commit b = ⟨b.take i :: (commit (b.drop i)).frames, (commit (b.drop i)).dropped, (commit (b.drop i)).rest⟩ := by
  obtain ⟨h4, hle, -⟩ := findPrefix_some h
  have hdrop : (b.drop i).length ≤ b.length - 1 := by rw [List.length_drop]; omega
  obtain ⟨n, hn⟩ := Nat.exists_eq_add_of_le' (show 1 ≤ b.length by omega)
  have hround : commitLoop n (b.drop i) = commit (b.drop i) := commitLoop_fuel _ _ _ (by omega) le_rfl
  simp only [commit, hn, commitLoop, h, hround]
  exact if_neg (by rw [Config.minLen]; omega)

/-- What holds of a commit whatever its first round does holds of every commit. -/
theorem commit_induction {P : List Byte → CommitResult → Prop}
    (short : ∀ b : List Byte, b.length ≤ 3 → P b ⟨[], [], b⟩)
    (notFound : ∀ b : List Byte, 4 ≤ b.length → findPrefix b = none →
      P b ⟨[], b.take (b.length - 3), b.drop (b.length - 3)⟩)
    (found : ∀ b i (later : CommitResult), findPrefix b = some i → P (b.drop i) later →
      P b ⟨b.take i :: later.frames, later.dropped, later.rest⟩) (b : List Byte) : P b (commit b) := by
  induction hn : b.length using Nat.strong_induction_on generalizing b with
  | _ n ih =>
    rcases Nat.lt_or_ge 3 b.length with hlong | hshort
    · cases h : findPrefix b with
      | none =>
        rw [commit_of_findPrefix_none hlong h]
        exact notFound b hlong h
      | some i =>
        obtain ⟨h4, -⟩ := findPrefix_some h
        rw [commit_of_findPrefix_some h]
        exact found b i _ h (ih _ (by rw [List.length_drop]; omega) _ rfl)
    · rw [commit_short hshort]
      exact short b hshort

theorem commit_frames_of_findPrefix_none {b : List Byte} (h : findPrefix b = none) : (commit b).frames = [] := by
  rcases Nat.lt_or_ge 3 b.length with hlong | hshort
  · rw [commit_of_findPrefix_none hlong h]
  · rw [commit_short hshort]

theorem findPrefix_eq_some_length_iff {f : List Byte} : findPrefix f = some f.length ↔
    validateCRC f = true ∧ 4 ≤ f.length ∧ ∀ j, 4 ≤ j → j < f.length → validateCRC (f.take j) = false := by
  rw [findPrefix_eq_some_iff, List.take_length]
  exact ⟨fun ⟨h4, _, hvalid, hleast⟩ => ⟨hvalid, h4, hleast⟩, fun ⟨hvalid, h4, hleast⟩ => ⟨h4, le_rfl, hvalid, hleast⟩⟩

theorem findPrefix_eq_some_length_of_isFrame {f : List Byte} (hf : isFrame f = true)
    (hleast : ∀ j, 4 ≤ j → j < f.length → validateCRC (f.take j) = false) : findPrefix f = some f.length := by
  rw [isFrame, Bool.and_eq_true, decide_eq_true_iff] at hf
  exact findPrefix_eq_some_length_iff.mpr ⟨hf.2, hf.1, hleast⟩

/-- What is extracted is itself a frame that no shorter one opens. -/
theorem findPrefix_take_self {b : List Byte} {i : Nat} (h : findPrefix b = some i) :
    findPrefix (b.take i) = some (b.take i).length := by
  obtain ⟨-, hle, -⟩ := findPrefix_some h
  rw [List.length_take_of_le hle]
  simpa using findPrefix_take_append h []

theorem commit_append_of_findPrefix {f : List Byte} (hf : findPrefix f = some f.length) (rest : List Byte) :
    commit (f ++ rest) = ⟨f :: (commit rest).frames, (commit rest).dropped, (commit rest).rest⟩ := by
  have hfound : findPrefix (f ++ rest) = some f.length := by simpa using findPrefix_take_append hf rest
  rw [commit_of_findPrefix_some hfound, List.take_left, List.drop_left]

theorem commit_of_findPrefix_length {f : List Byte} (hf : findPrefix f = some f.length) : commit f = ⟨[f], [], []⟩ := by
  simpa [commit_short] using commit_append_of_findPrefix hf []

end Sys2Proof.Machine
end

section
/-! 41_splitter.md R123, R130 to R132 and R142: what every commit gives, by induction on its rounds. -/

namespace Sys2Proof.Machine

theorem commit_conserves (b : List Byte) : b = (commit b).frames.flatten ++ (commit b).dropped ++ (commit b).rest := by
  refine commit_induction (P := fun b r => b = r.frames.flatten ++ r.dropped ++ r.rest) ?short ?notFound ?found b
  case short => simp
  case notFound => simp
  case found =>
    intro b i later _ ih
    simp only [List.flatten_cons, List.append_assoc] at ih ⊢
    rw [← ih, List.take_append_drop]

theorem findPrefix_of_mem_commit_frames (b : List Byte) : ∀ f ∈ (commit b).frames, findPrefix f = some f.length := by
  refine commit_induction (P := fun _ r => ∀ f ∈ r.frames, findPrefix f = some f.length) ?short ?notFound ?found b
  case short => exact fun _ _ _ hf => absurd hf List.not_mem_nil
  case notFound => exact fun _ _ _ _ hf => absurd hf List.not_mem_nil
  case found => exact fun b i later h ih => List.forall_mem_cons.mpr ⟨findPrefix_take_self h, ih⟩

theorem commit_frames_length_le (b : List Byte) : (commit b).frames.length ≤ b.length / 4 := by
  refine commit_induction (P := fun b r => r.frames.length ≤ b.length / 4) ?short ?notFound ?found b
  case short => exact fun _ _ => Nat.zero_le _
  case notFound => exact fun _ _ _ => Nat.zero_le _
  case found =>
    intro b i later h ih
    obtain ⟨h4, hle, -⟩ := findPrefix_some h
    simp only [List.length_drop, List.length_cons] at ih ⊢
    omega

theorem commit_rest_length_of_dropped (b : List Byte) : (commit b).dropped ≠ [] → (commit b).rest.length = 3 := by
  refine commit_induction (P := fun _ r => r.dropped ≠ [] → r.rest.length = 3) ?short ?notFound ?found b
  case short => exact fun _ _ hd => absurd rfl hd
  case notFound =>
    intro b h4 _ _
    rw [List.length_drop]
    omega
  case found => exact fun _ _ _ _ ih => ih

theorem length_le_of_mem_commit_frames {b f : List Byte} (hf : f ∈ (commit b).frames) : f.length ≤ b.length := by
  calc f.length ≤ (commit b).frames.flatten.length := (List.sublist_flatten_of_mem hf).length_le
    _ ≤ ((commit b).frames.flatten ++ (commit b).dropped ++ (commit b).rest).length := by
        simp only [List.length_append]; omega
    _ = b.length := congrArg List.length (commit_conserves b).symm

/-- Settles O31: the three rounds by their equations; each successful one takes at least 4 bytes. -/
theorem commitFollowsTheExtractionLoop : Obligations.CommitFollowsTheExtractionLoop := by
  refine ⟨fun b h => commit_short (Nat.le_of_lt_succ h), fun b i _ h => commit_of_findPrefix_some h, fun b h4 h => ?_,
    commit_frames_length_le⟩
  rw [commit_of_findPrefix_none h4 h]
  refine ⟨rfl, List.length_take_of_le (Nat.sub_le _ _), ?_⟩
  rw [List.length_drop]
  omega

/-- Settles O33: no frame is longer than the buffer, of which a commit left at most 3 bytes and the chunk is the rest. -/
theorem frameLengthsAreBoundedByTheBuffer : Obligations.FrameLengthsAreBoundedByTheBuffer := by
  refine ⟨fun b f hf => ?_, fun b chunk f hf => ?_, fun f hf hleast => ?_⟩
  · exact ⟨four_le_length_of_mem_commitLoop_frames _ b f hf, length_le_of_mem_commit_frames hf⟩
  · have hle := length_le_of_mem_commit_frames hf
    have hrest := commit_rest_length b
    rw [List.length_append] at hle
    omega
  · exact commit_of_findPrefix_length (findPrefix_eq_some_length_of_isFrame hf hleast)

/-- Settles O37: the shortest opening is what `findPrefix` finds, whatever follows; zero bytes after a frame keep the
residue. -/
theorem shortestMatchIsEmittedFirst : Obligations.ShortestMatchIsEmittedFirst := by
  refine ⟨fun p rest hp hleast => commit_append_of_findPrefix (findPrefix_eq_some_length_of_isFrame hp hleast) rest,
    by decide +kernel, by decide +kernel, fun f n hf hleast => ?_⟩
  have hfound := findPrefix_eq_some_length_of_isFrame hf hleast
  obtain ⟨hvalid, -⟩ := findPrefix_eq_some_length_iff.mp hfound
  obtain ⟨-, -, hzeros⟩ := residueDecidesValidity
  exact ⟨hzeros f n hvalid, by rw [commit_append_of_findPrefix hfound]; rfl⟩

/-- A cut inside the frame, beyond its third byte: the opening holds no frame, and all but its last three bytes go. -/
theorem ingest_take_of_cut {f : List Byte} {k : Nat} (hf : findPrefix f = some f.length) (h4 : 4 ≤ k) (hk : k < f.length) :
    ingest [] (f.take k) = ⟨[], f.take (k - 3), (f.take k).drop (k - 3)⟩ := by
  obtain ⟨-, -, -, hleast⟩ := findPrefix_eq_some_iff.mp hf
  have hlen : (f.take k).length = k := List.length_take_of_le hk.le
  have hnone : findPrefix (f.take k) = none := findPrefix_eq_none_iff.mpr fun j hj hle => by
    rw [hlen] at hle
    rw [List.take_take, min_eq_left hle]
    exact hleast j hj (by omega)
  rw [ingest, List.nil_append, commit_of_findPrefix_none (by omega) hnone, hlen, List.take_take,
    min_eq_left (Nat.sub_le k 3)]

/-- Settles O35: three bytes or fewer are kept and completed; beyond, the first commit has taken the front off. -/
theorem splitFrameSurvivesWithinThreeBytes : Obligations.SplitFrameSurvivesWithinThreeBytes := by
  intro f k hvalid h4 hleast hk
  have hf : findPrefix f = some f.length := findPrefix_eq_some_length_iff.mpr ⟨hvalid, h4, hleast⟩
  have hback : (f.take k).drop (k - 3) ++ f.drop k = f.drop (k - 3) := by
    rw [← List.drop_append_of_le_length (by rw [List.length_take_of_le hk]; exact Nat.sub_le k 3), List.take_append_drop]
  refine ⟨fun hk3 => ⟨?_, ?_⟩, fun hkn => ?_, fun hk4 hkn => ⟨ingest_take_of_cut hf hk4 hkn, hback, fun hlost => ?_⟩⟩
  · exact commit_short ((List.length_take_le k f).trans hk3)
  · rw [ingest, List.take_append_drop, commit_of_findPrefix_length hf]
  · rw [hkn, List.take_length, ingest, List.nil_append, commit_of_findPrefix_length hf]
  · rw [ingest, hback]
    exact commit_frames_of_findPrefix_none (findPrefix_eq_none_iff.mpr hlost)

end Sys2Proof.Machine
end

section
/-! 41_splitter.md R125 and R130 to R133: the laws of `FS_COMMIT`, from those of `commit`; and the bytes that a list of commands
puts into the buffer and takes out of it. -/

namespace Sys2Proof.Machine

theorem eq_of_exec_fsCommit {s t : State} (ht : exec .fsCommit s = .next t) :
    t = (s.setBuf (commit s.buf).rest).addRsp (.frames (commit s.buf).frames (commit s.buf).dropped) :=
  Host.Outcome.next.inj (ht.symm.trans (exec_fsCommit s))

/-- Settles O43: every frame is what a round found, by induction on the rounds. -/
theorem emittedFramesAreCrcValid : Obligations.EmittedFramesAreCrcValid := by
  intro s t ht
  obtain rfl := eq_of_exec_fsCommit ht
  exact ⟨_, _, rfl, fun f hf => findPrefix_eq_some_length_iff.mp (findPrefix_of_mem_commit_frames s.buf f hf)⟩

theorem exec_conserves {i : Instr} {s t : State} (ht : exec i s = .next t) :
    s.buf ++ bytesIn s i = bytesOut s i ++ t.buf := by
  cases i with
  | fsPush d =>
    by_cases hfull : s.bufCap = some s.buf.length
    · obtain rfl := Host.Outcome.next.inj ((exec_fsPush_full d hfull).symm.trans ht)
      simp [bytesIn, bytesOut, hfull]
    · obtain rfl := Host.Outcome.next.inj ((exec_fsPush_room d hfull).symm.trans ht)
      simp [bytesIn, bytesOut, hfull]
  | fsCommit =>
    obtain rfl := eq_of_exec_fsCommit ht
    simpa [bytesIn, bytesOut] using commit_conserves s.buf
  | fsClear =>
    obtain rfl := Host.Outcome.next.inj ((exec_fsClear s).symm.trans ht)
    simp [bytesIn, bytesOut]
  | fsPeek k =>
    obtain ⟨r, hr⟩ := exec_of_writesNothing (.inr (.inr (.inr (.inr ⟨k, rfl⟩)))) s
    obtain rfl := Host.Outcome.next.inj ((hr s (.refl s)).symm.trans ht)
    simp [bytesIn, bytesOut]
  | nop | crcInit | crcUpd | crcGet | crcChk | fsStat =>
    obtain rfl := Host.Outcome.next.inj ht
    exact List.append_nil s.buf

theorem afterCommands_conserves (s : State) (is : List Instr) :
    s.buf ++ allBytesIn s is = allBytesOut s is ++ (afterCommands s is).buf := by
  induction is generalizing s with
  | nil => exact List.append_nil s.buf
  | cons i is ih =>
    obtain ⟨t, ht, -⟩ := exec_total i s
    rw [allBytesIn, allBytesOut, afterCommands_singleton_of_exec ht, afterCommands_cons_of_exec ht]
    calc s.buf ++ (bytesIn s i ++ allBytesIn t is)
        = bytesOut s i ++ (t.buf ++ allBytesIn t is) := by simp only [← List.append_assoc, exec_conserves ht]
      _ = bytesOut s i ++ allBytesOut t is ++ (afterCommands t is).buf := by rw [ih, List.append_assoc]

/-- Settles O44: by induction on the rounds of a commit, and on the commands. -/
theorem bytesAreConserved : Obligations.BytesAreConserved := by
  refine ⟨fun s t ht => ?_, afterCommands_conserves⟩
  obtain rfl := eq_of_exec_fsCommit ht
  exact ⟨_, _, rfl, commit_conserves s.buf⟩

/-- Settles O45: the last round of a commit leaves the bytes too few for it, or the three that it keeps. -/
theorem commitLeavesAtMostThreeBytes : Obligations.CommitLeavesAtMostThreeBytes := by
  intro s t ht
  obtain rfl := eq_of_exec_fsCommit ht
  refine ⟨commit_rest_length s.buf, fun fs dropped hrsp hdropped => commit_rest_length_of_dropped s.buf ?_⟩
  obtain ⟨-, rfl⟩ : (commit s.buf).frames = fs ∧ (commit s.buf).dropped = dropped := by simpa using hrsp
  exact hdropped

/-- Settles O39: by its next state; at most 3 bytes are too few for a round; the example by evaluation. -/
theorem fsCommitExtractsFrames : Obligations.FsCommitExtractsFrames :=
  ⟨decode_encode .fsCommit, exec_fsCommit, fun _ => exec_fsCommit_short, by decide +kernel⟩

theorem afterCommands_keeps_short_buffer {is : List Instr} (his : ∀ i ∈ is, inUnitS i = false) {s : State}
    (hs : s.buf.length ≤ 3) : (afterCommands s is).buf.length ≤ 3 := by
  refine afterWords_keeps (P := fun s => s.buf.length ≤ 3) _ (fun w hw _ _ => ?_) s hs
  obtain ⟨i, hi, rfl⟩ := List.mem_map.mp hw
  refine runWord_keeps_short_buffer fun d hd => ?_
  obtain rfl : i = .fsPush d := by simpa using hd
  exact absurd (his _ hi) Bool.noConfusion

theorem afterCommands_fsCommits_short {s : State} (hs : s.buf.length ≤ 3) (n : Nat) :
    afterCommands s (List.replicate n .fsCommit) = { s with rsps := s.rsps ++ List.replicate n (.frames [] []) } := by
  induction n generalizing s with
  | zero => simp
  | succ n ih =>
    rw [List.replicate_succ, afterCommands_cons_of_exec (exec_fsCommit_short hs), ih (s := s.addRsp _) hs]
    simp [State.addRsp, List.replicate_succ]

/-- Settles O46: at most three bytes are left, and no other command adds one, so each commit finds too few. -/
theorem emptyIngestChangesNothing : Obligations.EmptyIngestChangesNothing := by
  rintro s t u others n ht hothers rfl
  have hshort : t.buf.length ≤ 3 := by
    rcases ht with ht | ht | rfl
    · obtain rfl := eq_of_exec_fsCommit ht
      exact commit_rest_length s.buf
    · obtain rfl := Host.Outcome.next.inj ht
      exact Nat.zero_le 3
    · exact Nat.zero_le 3
  exact afterCommands_fsCommits_short (afterCommands_keeps_short_buffer hothers hshort) n

end Sys2Proof.Machine
end

section
/-! 41_splitter.md R121 and R127 to R129: the commands of unit S that extract nothing, by their words and next states. -/

namespace Sys2Proof.Machine

/-- The operand byte is added to a word that is zero in its place (30_encoding.md R63). -/
theorem wordOf_eq_add (op : BitVec 4) (d : Byte) : wordOf op d = op.setWidth 16 <<< 12 + d.setWidth 16 := by
  refine (BitVec.add_eq_or_of_and_eq_zero _ _ ?_).symm
  ext k hk
  rcases Nat.lt_or_ge k 8 with hlow | hhigh
  · simp [show k < 12 by omega]
  · simp [BitVec.getLsbD_of_ge d k hhigh]

theorem decode_opcode_add {i : Instr} {d : Byte} (hd : operandByte i = d) :
    decode ((opcode i).setWidth 16 <<< 12 + d.setWidth 16) = .ok i := by
  rw [← wordOf_eq_add, ← hd]
  exact decode_encode i

/-- Settles O38: by its next state with and without room; the word by its two fields. -/
theorem fsPushAppendsOrRefuses : Obligations.FsPushAppendsOrRefuses := by
  refine ⟨fun d => decode_opcode_add (i := .fsPush d) rfl, fun d s => exec_fsPush_room d, fun d s => exec_fsPush_full d,
    fun s hcap hbuf => ?_⟩
  refine ⟨_, exec_fsPush_room _ (by simp [hcap]), ?_⟩
  simp [hbuf]

/-- Settles O40: by its next state, and as an idempotent command. -/
theorem fsClearEmptiesTheBuffer : Obligations.FsClearEmptiesTheBuffer :=
  ⟨decode_encode .fsClear, exec_fsClear, fun _ _ _ ht hu =>
    Host.Outcome.next.inj (hu.symm.trans (exec_twice_of_idempotent (.inl rfl) ht))⟩

/-- Settles O41: by its next state. -/
theorem fsStatAnswersTheStatusView : Obligations.FsStatAnswersTheStatusView :=
  ⟨decode_encode .fsStat, exec_fsStat, fun cap => ⟨_, exec_fsStat (State.resetWith cap), rfl⟩⟩

/-- Settles O42: by its next state on both sides of the length; the word by its two fields. -/
theorem fsPeekReadsOneByte : Obligations.FsPeekReadsOneByte := by
  refine ⟨fun k => decode_opcode_add (i := .fsPeek k) rfl, fun k s hk => exec_fsPeek_held hk,
    fun k s hk => exec_fsPeek_beyond hk, fun s hbuf => ⟨?_, exec_fsPeek_beyond (by simp [hbuf])⟩⟩
  have hheld : (0x01#8).toNat < s.buf.length := by simp [hbuf]
  have hbyte : s.buf[(0x01#8).toNat] = 0x38#8 := by simp [hbuf]
  rw [exec_fsPeek_held hheld, hbyte]
  rfl

end Sys2Proof.Machine
end

section
/-! 42_system.md R150 and R151: an illegal word as one step, and `NOP` by its one word. -/

namespace Sys2Proof.Machine

theorem step_of_port {s : State} {w : Word} {ws : List Word} (h : s.port = w :: ws) :
    step s = runWord w (s.setPort ws) := by
  rw [step, takeWord_some.mpr ⟨ws, h, rfl⟩]

theorem step_of_illegal {s : State} {w : Word} {ws : List Word} (hport : s.port = w :: ws)
    (hill : ∃ why, decode w = .error why) : step s = .next ((s.setPort ws).addRsp (.err .illegal)) :=
  (step_of_port hport).trans (runWord_of_error hill _)

/-- Settles O6: the step runs the word at the head of the port; `0x5000` has a reserved operation code. -/
theorem illegalWordAnswersIllegal : Obligations.IllegalWordAnswersIllegal := by
  refine ⟨fun s w ws why hport hwhy => step_of_illegal hport ⟨why, hwhy⟩, fun s ws hport hacc => ?_⟩
  have hill : ∃ why, decode 0x5000#16 = .error why := ⟨_, decode_of_reservedOp (by decide)⟩
  exact ⟨_, step_of_illegal hport hill, rfl, hacc⟩

/-- A command has exactly one word (30_encoding.md R64, R68). -/
theorem decode_eq_ok_iff {w : Word} {i : Instr} : decode w = .ok i ↔ w = encode i :=
  ⟨fun h => (encode_of_decode h).symm, fun h => h ▸ decode_encode i⟩

theorem opcode_eq_zero_iff {i : Instr} : opcode i = 0x0#4 ↔ i = .nop := by
  cases i <;> simp [opcode]

theorem decode_eq_nop_of_opField_zero {w : Word} {i : Instr} (hop : opField w = 0x0#4) (h : decode w = .ok i) :
    decode w = .ok .nop := by
  obtain ⟨-, hopcode, -⟩ := fields_of_decode h
  rwa [← opcode_eq_zero_iff.mp (hopcode.trans hop)]

/-- Settles O29: the word by the encoder; a legal word with operation code 0 is that of `NOP`. -/
theorem nopChangesNothing : Obligations.NopChangesNothing := by
  have hword : ∀ w, decode w = .ok .nop ↔ w = 0x0000#16 := fun _ => decode_eq_ok_iff
  refine ⟨hword, exec_nop, fun w hop hne => ?_⟩
  cases h : decode w with
  | ok i => exact absurd ((hword w).mp (decode_eq_nop_of_opField_zero hop h)) hne
  | error why => exact ⟨why, rfl⟩

end Sys2Proof.Machine
end

section
/-! 45_decoder_reference.md R176: the response decoder by the tests that decide its result, in their order; and what each
result says (R162 to R165, R171, R174). -/

namespace Sys2Proof.Machine

theorem decodeResponse_of_short (p : Config.DecoderParams) {f : List Byte} (q : Option (List Byte)) (h : f.length < 5) :
    decodeResponse p f q = invalidResult "response too short" := if_pos h

theorem decodeResponse_of_invalid (p : Config.DecoderParams) {f : List Byte} (q : Option (List Byte)) (h : 5 ≤ f.length)
    (hcrc : validateCRC f = false) : decodeResponse p f q = invalidResult "CRC check failed" := by
  rw [decodeResponse, if_neg (Nat.not_lt.mpr h), if_pos hcrc]

theorem getD_address_function {f : List Byte} (h : 5 ≤ f.length) : f.getD 0 0#8 = f[0] ∧ f.getD 1 0#8 = f[1] :=
  ⟨List.getD_eq_getElem f _ (by omega), List.getD_eq_getElem f _ (by omega)⟩

section
variable (p : Config.DecoderParams) {f : List Byte} {q : Option (List Byte)} (h : 5 ≤ f.length) (hcrc : validateCRC f = true)
include hcrc

theorem decodeResponse_of_exception (hexc : f[1].getLsbD 7 = true) :
    decodeResponse p f q = ⟨true, some f[0], some f[1], true, some (exceptionText p f[1]), .absent⟩ := by
  simp only [decodeResponse, Nat.not_lt.mpr h, hcrc, getD_address_function h, hexc, if_true, if_false, reduceCtorEq]

variable (hexc : f[1].getLsbD 7 = false)
include hexc

theorem decodeResponse_of_no_request (hq : requestedFunction q = none) :
    decodeResponse p f q = ⟨true, some f[0], some f[1], false, none, .absent⟩ := by
  simp only [decodeResponse, Nat.not_lt.mpr h, hcrc, getD_address_function h, hexc, hq, if_false, reduceCtorEq]

theorem decodeResponse_of_payload {requested : Byte} {x : Payload} (hq : requestedFunction q = some requested)
    (hx : decodePayload f requested = some x) : decodeResponse p f q = ⟨true, some f[0], some f[1], false, none, x⟩ := by
  simp only [decodeResponse, Nat.not_lt.mpr h, hcrc, getD_address_function h, hexc, hq, hx, if_false, reduceCtorEq]

theorem decodeResponse_of_no_payload {requested : Byte} (hq : requestedFunction q = some requested)
    (hx : decodePayload f requested = none) : decodeResponse p f q = invalidResult p.errTruncText := by
  simp only [decodeResponse, Nat.not_lt.mpr h, hcrc, getD_address_function h, hexc, hq, hx, if_false, reduceCtorEq]

end

/-- A request shorter than 2 bytes counts as absent (45_decoder_reference.md R171). -/
theorem requestedFunction_eq_none {q : Option (List Byte)} (hq : q = none ∨ ∃ r : List Byte, q = some r ∧ r.length < 2) :
    requestedFunction q = none := by
  rcases hq with rfl | ⟨r, rfl, hr⟩
  · rfl
  · exact List.getElem?_eq_none (by omega)

/-- Settles O58: the tests in their order. -/
theorem decoderTestsLengthThenCrcThenRequest : Obligations.DecoderTestsLengthThenCrcThenRequest :=
  ⟨fun p _ q => decodeResponse_of_short p q, fun p _ q => decodeResponse_of_invalid p q,
    fun p _ _ h hcrc hexc hq => decodeResponse_of_no_request p h hcrc hexc (requestedFunction_eq_none hq)⟩

/-- The hexadecimal digits in order of value. -/
def hexDigits (upper : Bool) : List Char := ['0', '1', '2', '3', '4', '5', '6', '7', '8', '9'] ++
  (if upper then ['A', 'B', 'C', 'D', 'E', 'F'] else ['a', 'b', 'c', 'd', 'e', 'f'])

theorem hexDigit_eq_getD (upper : Bool) (n : Nat) :
    hexDigit upper n = ((hexDigits upper).map fun c => String.ofList [c]).getD n "" := by
  cases upper <;> rfl

theorem exists_hexDigit (upper : Bool) {n : Nat} (hn : n < 16) :
    ∃ c, hexDigit upper n = String.ofList [c] ∧ (hexDigits upper)[n]? = some c := by
  have hlen : n < (hexDigits upper).length := by cases upper <;> exact hn
  exact ⟨(hexDigits upper)[n], by simp [hexDigit_eq_getD, hlen], List.getElem?_eq_getElem hlen⟩

theorem exists_hexByte (upper : Bool) (code : Byte) : ∃ hi lo, hexByte upper code = String.ofList [hi, lo] ∧
    (hexDigits upper)[code.toNat / 16]? = some hi ∧ (hexDigits upper)[code.toNat % 16]? = some lo := by
  obtain ⟨hi, hhi, hget_hi⟩ := exists_hexDigit upper (show code.toNat / 16 < 16 by omega)
  obtain ⟨lo, hlo, hget_lo⟩ := exists_hexDigit upper (show code.toNat % 16 < 16 by omega)
  exact ⟨hi, lo, by rw [hexByte, hhi, hlo, ← String.ofList_append]; rfl, hget_hi, hget_lo⟩

theorem errDescription_of_ne (p : Config.DecoderParams) {code : Byte} (h : code ≠ 0x83#8) :
    errDescription p code = (p.errTable code).getD "unknown error" := if_neg h

/-- The source's example: no letter digit and the one entry it gives, so no open parameter shows. -/
theorem exceptionText_0x83 (p : Config.DecoderParams) : exceptionText p 0x83#8 = "error code 83: illegal data value" := by
  have hhex : ∀ upper, hexByte upper 0x83#8 = "83" := by decide +kernel
  rw [exceptionText, hhex, errDescription, if_pos rfl]
  decide +kernel

/-- Settles O59: the exception test decides whatever the request; the text by its two digits and the table's entry. -/
theorem decoderReportsExceptionResponses : Obligations.DecoderReportsExceptionResponses := by
  refine ⟨fun p _ _ h hcrc hexc => decodeResponse_of_exception p h hcrc hexc, fun p q => ?_, fun p => if_pos rfl,
    fun p code description hne hentry => ?_, fun p code hne hentry => ?_, exists_hexByte⟩
  · obtain ⟨hlen, hcrc, hexc, -⟩ := Tests.witness_DecoderReportsExceptionResponses
    have hresult := decodeResponse_of_exception (q := q) p hlen hcrc hexc
    rwa [show Tests.frameS6[1] = 0x83#8 from rfl, exceptionText_0x83] at hresult
  · rw [errDescription_of_ne p hne, hentry, Option.getD_some]
  · rw [errDescription_of_ne p hne, hentry, Option.getD_none]

end Sys2Proof.Machine
end

section
/-! 45_decoder_reference.md R166 to R173: the payloads, byte by byte, and the bound within which each is read. -/

namespace Sys2Proof.Machine

theorem toNat_be16 (hi lo : Byte) : (be16 hi lo).toNat = 256 * hi.toNat + lo.toNat := by
  rw [be16, BitVec.toNat_append, ← Nat.shiftLeft_add_eq_or_of_lt lo.isLt, Nat.shiftLeft_eq, Nat.mul_comm]

/-- A big-endian value of two bytes that the frame holds. -/
theorem toNat_be16_getD {f : List Byte} {i j : Nat} (hi : i < f.length) (hj : j < f.length) :
    ∃ a b, f[i]? = some a ∧ f[j]? = some b ∧ (be16 (f.getD i 0#8) (f.getD j 0#8)).toNat = 256 * a.toNat + b.toNat := by
  refine ⟨f[i], f[j], List.getElem?_eq_getElem hi, List.getElem?_eq_getElem hj, ?_⟩
  rw [toNat_be16, List.getD_eq_getElem _ _ hi, List.getD_eq_getElem _ _ hj]

/-- The two big-endian values of a write's response (45_decoder_reference.md R168, R169), which stand before the CRC. -/
theorem toNat_be16_writeFields {f : List Byte} (h : 8 ≤ f.length) : ∃ b2 b3 b4 b5,
    f[2]? = some b2 ∧ f[3]? = some b3 ∧ f[4]? = some b4 ∧ f[5]? = some b5 ∧
    (be16 (f.getD 2 0#8) (f.getD 3 0#8)).toNat = 256 * b2.toNat + b3.toNat ∧
    (be16 (f.getD 4 0#8) (f.getD 5 0#8)).toNat = 256 * b4.toNat + b5.toNat := by
  obtain ⟨b2, b3, h2, h3, hfirst⟩ := toNat_be16_getD (f := f) (i := 2) (j := 3) (by omega) (by omega)
  obtain ⟨b4, b5, h4, h5, hsecond⟩ := toNat_be16_getD (f := f) (i := 4) (j := 5) (by omega) (by omega)
  exact ⟨b2, b3, b4, b5, h2, h3, h4, h5, hfirst, hsecond⟩

theorem unpackBits_cons (b : Byte) (bs : List Byte) :
    unpackBits (b :: bs) = (List.range 8).map b.getLsbD ++ unpackBits bs := rfl

@[simp] theorem length_unpackBits (bs : List Byte) : (unpackBits bs).length = bs.length * 8 := by
  induction bs with
  | nil => rfl
  | cons b bs ih => simp [unpackBits_cons, ih, Nat.add_mul, Nat.add_comm]

/-- Bit `k` of byte `j` (45_decoder_reference.md R166). -/
theorem getElem?_unpackBits (bs : List Byte) {j k : Nat} (hk : k < 8) :
    (unpackBits bs)[8 * j + k]? = bs[j]?.map fun b => b.getLsbD k := by
  induction bs generalizing j with
  | nil => rfl
  | cons b bs ih =>
    rw [unpackBits_cons]
    cases j with
    | zero => simp [List.getElem?_append_left, hk]
    | succ j =>
      rw [List.getElem?_append_right (by simp; omega), List.getElem?_cons_succ, ← ih]
      congr 1
      simp
      omega

theorem unpackBits_spec {f : List Byte} {count : Nat} (h : 3 + count ≤ f.length) {j k : Nat} (hj : j < count) (hk : k < 8) :
    ∃ b, f[3 + j]? = some b ∧ (unpackBits ((f.drop 3).take count))[8 * j + k]? = some (b.getLsbD k) := by
  have hbyte : f[3 + j]? = some f[3 + j] := List.getElem?_eq_getElem (by omega)
  exact ⟨f[3 + j], hbyte, by simp [getElem?_unpackBits _ hk, hj, hbyte]⟩

theorem unpackRegisters_spec {f : List Byte} {count : Nat} (h : 3 + 2 * count ≤ f.length) {j : Nat} (hj : j < count) :
    ∃ hi lo v, f[3 + 2 * j]? = some hi ∧ f[4 + 2 * j]? = some lo ∧ (unpackRegisters f count)[j]? = some v ∧
      v.toNat = 256 * hi.toNat + lo.toNat := by
  obtain ⟨hi, lo, hhi, hlo, hv⟩ :=
    toNat_be16_getD (f := f) (show 3 + 2 * j < f.length by omega) (show 4 + 2 * j < f.length by omega)
  exact ⟨hi, lo, _, hhi, hlo, by simp [unpackRegisters, hj], hv⟩

/-- The payload `x`, if all its bytes lie before index `stop` and that before the CRC (45_decoder_reference.md R172). -/
def payloadWithin (f : List Byte) (stop : Nat) (x : Payload) : Option Payload :=
  if stop ≤ f.length - 2 then some x else none

section
variable (f : List Byte) {requested : Byte}

theorem decodePayload_bits (h : requested.toNat = 1 ∨ requested.toNat = 2) : decodePayload f requested =
    payloadWithin f (3 + (f.getD 2 0#8).toNat) (.bits (unpackBits ((f.drop 3).take (f.getD 2 0#8).toNat))) := by
  rcases h with h | h <;> rw [decodePayload, h] <;> rfl

theorem decodePayload_registers (h : requested.toNat = 3 ∨ requested.toNat = 4) : decodePayload f requested =
    payloadWithin f (3 + 2 * ((f.getD 2 0#8).toNat / 2)) (.registers (unpackRegisters f ((f.getD 2 0#8).toNat / 2))) := by
  rcases h with h | h <;> rw [decodePayload, h] <;> rfl

theorem decodePayload_single (h : requested.toNat = 5 ∨ requested.toNat = 6) : decodePayload f requested =
    payloadWithin f 6 (.single (be16 (f.getD 2 0#8) (f.getD 3 0#8)) (be16 (f.getD 4 0#8) (f.getD 5 0#8))) := by
  rcases h with h | h <;> rw [decodePayload, h] <;> rfl

theorem decodePayload_multiple (h : requested.toNat = 15 ∨ requested.toNat = 16) : decodePayload f requested =
    payloadWithin f 6 (.multiple (be16 (f.getD 2 0#8) (f.getD 3 0#8)) (be16 (f.getD 4 0#8) (f.getD 5 0#8))) := by
  rcases h with h | h <;> rw [decodePayload, h] <;> rfl

theorem decodePayload_unrecognized (h : requested.toNat ∉ [1, 2, 3, 4, 5, 6, 15, 16]) :
    decodePayload f requested = some .unrecognized := by
  unfold decodePayload
  split <;> simp_all

end

theorem requestedFunction_some {r : List Byte} (hr : 2 ≤ r.length) : requestedFunction (some r) = some r[1] :=
  List.getElem?_eq_getElem (by omega)

/-- The payload, or failing closed: the same two clauses for every requested function that reads any byte. -/
theorem decodeResponse_of_payloadWithin (p : Config.DecoderParams) {f r : List Byte} (h : 5 ≤ f.length) (hr : 2 ≤ r.length)
    (hcrc : validateCRC f = true) (hexc : f[1].getLsbD 7 = false) {stop : Nat} {x : Payload}
    (hx : decodePayload f r[1] = payloadWithin f stop x) :
    (f.length - 2 < stop → decodeResponse p f (some r) = ⟨false, none, none, false, some p.errTruncText, .absent⟩) ∧
    (stop ≤ f.length - 2 → decodeResponse p f (some r) = ⟨true, some f[0], some f[1], false, none, x⟩) := by
  have hreq := requestedFunction_some hr
  exact ⟨fun hout => decodeResponse_of_no_payload p h hcrc hexc hreq (hx.trans (if_neg (Nat.not_le.mpr hout))),
    fun hin => decodeResponse_of_payload p h hcrc hexc hreq (hx.trans (if_pos hin))⟩

/-- Settles O60: by the payload the requested function asks for and the bound within which it is read. -/
theorem decoderUnpacksByTheRequestedFunction : Obligations.DecoderUnpacksByTheRequestedFunction := by
  intro p f r h hr hcrc hexc result truncated count function
  have hcount : (f.getD 2 0#8).toNat = count := by rw [List.getD_eq_getElem]
  refine ⟨fun hfun => ?bits, fun hfun => ?registers, fun hfun => ?single, fun hfun => ?multiple, fun hfun => ?unrecognized⟩
  case bits =>
    obtain ⟨hout, hin⟩ := decodeResponse_of_payloadWithin p h hr hcrc hexc (decodePayload_bits f hfun)
    rw [hcount] at hout hin
    exact ⟨hout, fun hle => ⟨_, hin hle, by simp; omega, fun j k hj hk => unpackBits_spec (by omega) hj hk⟩⟩
  case registers =>
    obtain ⟨hout, hin⟩ := decodeResponse_of_payloadWithin p h hr hcrc hexc (decodePayload_registers f hfun)
    rw [hcount] at hout hin
    exact ⟨hout, fun hle => ⟨_, hin hle, by simp [unpackRegisters], fun j hj => unpackRegisters_spec (by omega) hj⟩⟩
  case single =>
    obtain ⟨hout, hin⟩ := decodeResponse_of_payloadWithin p h hr hcrc hexc (decodePayload_single f hfun)
    refine ⟨fun hlt => hout (by omega), fun hle => ?_⟩
    obtain ⟨b2, b3, b4, b5, hfields⟩ := toNat_be16_writeFields hle
    exact ⟨_, _, b2, b3, b4, b5, hin (by omega), hfields⟩
  case multiple =>
    obtain ⟨hout, hin⟩ := decodeResponse_of_payloadWithin p h hr hcrc hexc (decodePayload_multiple f hfun)
    refine ⟨fun hlt => hout (by omega), fun hle => ?_⟩
    obtain ⟨b2, b3, b4, b5, hfields⟩ := toNat_be16_writeFields hle
    exact ⟨_, _, b2, b3, b4, b5, hin (by omega), hfields⟩
  case unrecognized =>
    exact decodeResponse_of_payload p h hcrc hexc (requestedFunction_some hr) (decodePayload_unrecognized f hfun)

end Sys2Proof.Machine
end

section
/-! 60_exceptions.md R191 and R204, 30_encoding.md R71: the three causes of an error; what has none of them is answered without
one. -/

namespace Sys2Proof.Machine

theorem exec_answers_no_error {i : Instr} {s : State} (hpeek : ∀ k, i = .fsPeek k → k.toNat < s.buf.length)
    (hpush : ∀ d, i = .fsPush d → s.bufCap ≠ some s.buf.length) :
    ∃ t r, exec i s = .next t ∧ t.rsps = s.rsps ++ [r] ∧ ∀ code, r ≠ .err code := by
  cases i with
  | fsPush d => exact ⟨_, _, exec_fsPush_room d (hpush d rfl), rfl, nofun⟩
  | fsPeek k => exact ⟨_, _, exec_fsPeek_held (hpeek k rfl), rfl, nofun⟩
  | nop | crcInit | crcUpd | crcGet | crcChk | fsCommit | fsClear | fsStat => exact ⟨_, _, rfl, rfl, nofun⟩

/-- Settles O51: a word is illegal, or its command meets one of the two other causes, or neither, and each of the four cases
has one kind of answer. -/
theorem eachErrorHasOneCause : Obligations.EachErrorHasOneCause := by
  refine ⟨fun w s => ?_, rfl, rfl, rfl⟩
  cases h : decode w with
  | error why => exact ⟨_, _, runWord_of_error ⟨why, h⟩ s, rfl, by simp, by simp, by simp, fun _ => rfl, nofun⟩
  | ok i =>
    obtain rfl : encode i = w := encode_of_decode h
    simp only [runWord_encode, Except.ok.injEq]
    by_cases hbeyond : ∃ k, i = .fsPeek k ∧ s.buf.length ≤ k.toNat
    · obtain ⟨k, rfl, hk⟩ := hbeyond
      exact ⟨_, _, exec_fsPeek_beyond hk, rfl, by simp, by simpa using hk, by simp, fun _ => rfl, nofun⟩
    by_cases hfull : ∃ d, i = .fsPush d ∧ s.bufCap = some s.buf.length
    · obtain ⟨d, rfl, hcap⟩ := hfull
      exact ⟨_, _, exec_fsPush_full d hcap, rfl, by simp, by simp, by simpa using hcap, by simp, fun _ => rfl⟩
    · obtain ⟨t, r, ht, hrsps, hr⟩ := exec_answers_no_error (i := i) (s := s)
        (fun k hi => Nat.lt_of_not_le fun hk => hbeyond ⟨k, hi, hk⟩) (fun d hi hcap => hfull ⟨d, hi, hcap⟩)
      exact ⟨t, r, ht, hrsps, by simp [hr], by simp only [hr, hbeyond], by simp only [hr, hfull], by simp [hr],
        by simp [hr]⟩

end Sys2Proof.Machine
end

section
/-! 70_reset_and_hazards.md R219, 20_memory.md R56: a chunk too long for the room is the part that fits, then bytes pushed onto a
full buffer. -/

namespace Sys2Proof.Machine

/-- A full buffer stays full: it refuses every byte, and `OVF` is set by the first of them (41_splitter.md R121). -/
theorem afterCommands_fsPushes_full {s : State} (hfull : s.bufCap = some s.buf.length) (bs : List Byte) :
    afterCommands s (bs.map .fsPush) =
      { s with ovf := s.ovf || !bs.isEmpty, rsps := s.rsps ++ List.replicate bs.length (.err .overflow) } := by
  induction bs generalizing s with
  | nil => simp
  | cons d bs ih =>
    rw [List.map_cons, afterCommands_cons_of_exec (exec_fsPush_full d hfull), ih (by simpa using hfull)]
    simp [raiseOvf, State.setOvf, State.addRsp, List.replicate_succ]

/-- A chunk whose first part fills the buffer exactly: that part is stored, and what follows it is refused. -/
theorem afterCommands_fsPushes_excess {s : State} {fit excess : List Byte}
    (hfill : s.bufCap = some (s.buf.length + fit.length)) (hexcess : excess ≠ []) :
    afterCommands s ((fit ++ excess).map .fsPush) =
      { s with buf := s.buf ++ fit, ovf := true,
               rsps := s.rsps ++ List.replicate fit.length .ok ++ List.replicate excess.length (.err .overflow) } := by
  have hroom : ∀ n, s.bufCap = some n → s.buf.length + fit.length ≤ n := by simp [hfill]
  rw [List.map_append, afterCommands_append, afterCommands_fsPushes hroom,
    afterCommands_fsPushes_full (by simp [hfill])]
  simp [hexcess]

/-- Settles O53: a longer chunk is cut where the buffer becomes full. -/
theorem onlyTheExcessOfAChunkIsRefused : Obligations.OnlyTheExcessOfAChunkIsRefused := by
  refine ⟨fun s n chunk hcap hfits => afterCommands_fsPushes (by simpa [hcap] using hfits),
    fun s n chunk hcap hle hlong => ?_⟩
  have hfit : (chunk.take (n - s.buf.length)).length = n - s.buf.length := List.length_take_of_le (by omega)
  have hfill : s.bufCap = some (s.buf.length + (chunk.take (n - s.buf.length)).length) := by
    rw [hcap, hfit, Nat.add_sub_cancel' hle]
  have hexcess : chunk.drop (n - s.buf.length) ≠ [] := by
    rw [Ne, List.drop_eq_nil_iff]
    omega
  simpa only [List.take_append_drop, hfit, List.length_drop] using afterCommands_fsPushes_excess hfill hexcess

end Sys2Proof.Machine
end

section
/-! 10_state.md R20, R24 and 20_memory.md R56: the invariant at reset and over a step. A command adds only what the capacity has
room for, and nothing that leaves the buffer makes it longer. -/

namespace Sys2Proof.Machine

/-- `FS_PUSH` alone adds a byte, and only where there is room (20_memory.md R56). -/
theorem length_buf_bytesIn_le {s : State} {n : Nat} (hcap : s.bufCap = some n) (hfits : s.buf.length ≤ n) (i : Instr) :
    (s.buf ++ bytesIn s i).length ≤ n := by
  cases i with
  | fsPush d =>
    by_cases hfull : s.bufCap = some s.buf.length
    · simpa [bytesIn, hfull] using hfits
    · have hroom : s.buf.length ≠ n := fun hlen => hfull (hlen ▸ hcap)
      simp only [bytesIn, hfull, if_false, List.length_append, List.length_singleton]
      omega
  | nop | crcInit | crcUpd | crcGet | crcChk | fsCommit | fsClear | fsStat | fsPeek => simpa [bytesIn] using hfits

theorem exec_keeps_wf {i : Instr} {s t : State} (ht : exec i s = .next t) (hs : Memory.wf s.bufCap s.buf = true) :
    Memory.wf t.bufCap t.buf = true := by
  refine (Memory.wf_iff _ _).mpr fun n hcap => ?_
  rw [exec_bufCap ht] at hcap
  calc t.buf.length ≤ (bytesOut s i ++ t.buf).length := by simp
    _ = (s.buf ++ bytesIn s i).length := by rw [exec_conserves ht]
    _ ≤ n := length_buf_bytesIn_le hcap ((Memory.wf_iff _ _).mp hs n hcap) i

theorem State.Inv.of_exec {i : Instr} {s t : State} (hs : s.Inv) (ht : exec i s = .next t) : t.Inv := by
  obtain ⟨hlegal, hwf, hovf⟩ := hs
  refine ⟨by rwa [exec_bufCap ht], exec_keeps_wf ht hwf, fun hcap => ?_⟩
  rw [exec_bufCap ht] at hcap
  exact (exec_keeps_unbounded_without_overflow i s t ht ⟨hcap, hovf hcap⟩).2

theorem runWord_bufCap {w : Word} {s t : State} (ht : runWord w s = .next t) : t.bufCap = s.bufCap := by
  rcases runWord_cases w s with ⟨i, -, hrun⟩ | ⟨_, -, hrun⟩
  · exact exec_bufCap (hrun ▸ ht)
  · obtain rfl := Host.Outcome.next.inj (hrun.symm.trans ht)
    rfl

theorem State.Inv.of_runWord {w : Word} {s t : State} (hs : s.Inv) (ht : runWord w s = .next t) : t.Inv := by
  rcases runWord_cases w s with ⟨i, -, hrun⟩ | ⟨_, -, hrun⟩
  · exact hs.of_exec (hrun ▸ ht)
  · obtain rfl := Host.Outcome.next.inj (hrun.symm.trans ht)
    exact hs

/-- Settles O56: a step holds the state or performs a word, whose command adds only what fits. -/
theorem stepKeepsTheInvariant : Obligations.StepKeepsTheInvariant := by
  intro s t hs ht
  rcases step_cases s with ⟨w, ws, -, hstep⟩ | ⟨-, hstep⟩
  · have hrun : runWord w (s.setPort ws) = .next t := hstep.symm.trans ht
    have hs' : (s.setPort ws).Inv := hs
    exact ⟨hs'.of_runWord hrun, (runWord_bufCap hrun).trans (State.setPort_bufCap s ws)⟩
  · obtain rfl := Host.Outcome.next.inj (hstep.symm.trans ht)
    exact ⟨hs, rfl⟩

theorem State.Inv.resetWith {cap : Config.BufCap} (hcap : WellFormed.bufCap cap = true) : (State.resetWith cap).Inv :=
  ⟨hcap, Memory.wf_resetWith cap, fun _ => rfl⟩

/-- Settles O55: an empty buffer fits every capacity, and unbounded is a legal one. -/
theorem resetMeetsTheInvariant : Obligations.ResetMeetsTheInvariant :=
  ⟨fun _ => State.Inv.resetWith, State.Inv.resetWith rfl⟩

end Sys2Proof.Machine
end

section
/-! 30_encoding.md R75: the opcode table, a row by its operation code. A row's mask keeps the fields that must be zero (R62,
R63), so the words of a row are told by their fields, as decoding tells them (R68). Then the words written out in R75. -/

namespace Sys2Proof

/-- The operation codes of the ten commands, in the order of the table (30_encoding.md R64). -/
def commandOps : List (BitVec 4) := [0x0#4, 0x1#4, 0x2#4, 0x3#4, 0x4#4, 0x8#4, 0x9#4, 0xA#4, 0xB#4, 0xC#4]

/-- The row of an operation code: its mask leaves out the operand of format B alone (30_encoding.md R62, R63). -/
def rowOf (op : BitVec 4) : OpcodeRow := ⟨if op ∈ formatNOps then 0xFFFF#16 else 0xFF00#16, wordOf op 0x00#8⟩

theorem opcodeTable_eq : opcodeTable = commandOps.map rowOf := by decide

theorem mem_commandOps_iff : ∀ op : BitVec 4, op ∈ commandOps ↔ op ∉ reservedOps := by decide

/-- A word is its three fields (30_encoding.md R61). -/
theorem eq_wordOf_iff {w : Word} {op : BitVec 4} {d : Byte} :
    w = wordOf op d ↔ opField w = op ∧ rsvField w = 0#4 ∧ dField w = d := by
  constructor
  · rintro rfl
    exact ⟨Laws.EncodedFields.opField_wordOf op d, Laws.EncodedFields.rsvField_wordOf op d,
      Laws.EncodedFields.dField_wordOf op d⟩
  · rintro ⟨rfl, hrsv, rfl⟩
    exact (wordOf_fields hrsv).symm

theorem opField_and (w m : Word) : opField (w &&& m) = opField w &&& opField m := BitVec.extractLsb'_and

theorem rsvField_and (w m : Word) : rsvField (w &&& m) = rsvField w &&& rsvField m := BitVec.extractLsb'_and

theorem dField_and (w m : Word) : dField (w &&& m) = dField w &&& dField m := BitVec.extractLsb'_and

theorem rowOf_matches_iff {op : BitVec 4} {w : Word} : (rowOf op).matches w = true ↔
    opField w = op ∧ rsvField w = 0#4 ∧ (op ∈ formatNOps → dField w = 0x00#8) := by
  rw [OpcodeRow.matches, beq_iff_eq, rowOf, eq_wordOf_iff, opField_and, rsvField_and, dField_and]
  by_cases hN : op ∈ formatNOps
  · have hmask : opField 0xFFFF#16 = BitVec.allOnes 4 ∧ rsvField 0xFFFF#16 = BitVec.allOnes 4 ∧
        dField 0xFFFF#16 = BitVec.allOnes 8 := by decide
    simp only [hN, if_true, hmask, BitVec.and_allOnes, true_imp_iff]
  · have hmask : opField 0xFF00#16 = BitVec.allOnes 4 ∧ rsvField 0xFF00#16 = BitVec.allOnes 4 ∧
        dField 0xFF00#16 = 0#8 := by decide
    simp only [hN, if_false, hmask, BitVec.and_allOnes, BitVec.and_zero, false_imp_iff]

theorem exists_decode_iff {w : Word} : (∃ i, decode w = .ok i) ↔ ¬ IllegalFields w := by
  constructor
  · rintro ⟨i, hi⟩ hill
    obtain ⟨why, hwhy⟩ := decode_of_illegalFields hill
    exact absurd (hi.symm.trans hwhy) nofun
  · intro hlegal
    simp only [IllegalFields, not_or, not_and, ne_eq, not_not] at hlegal
    obtain ⟨hop, hrsv, hd⟩ := hlegal
    obtain ⟨i, hi, -⟩ := decode_of_legalFields hop hrsv hd
    exact ⟨i, hi⟩

theorem wellFormed_word_iff {w : Word} : WellFormed.word w = true ↔ ¬ IllegalFields w := by
  simp [WellFormed.word, opcodeTable_eq, rowOf_matches_iff, mem_commandOps_iff, IllegalFields]

/-- Settles O3: table and decoder tell a word by the same fields, and a row's operation code is that of the words it matches. -/
theorem opcodeTableIsACompleteDecoder : Obligations.OpcodeTableIsACompleteDecoder := by
  refine ⟨fun w => exists_decode_iff.trans wellFormed_word_iff.symm, fun w r r' hr hr' hmatch hmatch' => ?_⟩
  rw [opcodeTable_eq] at hr hr'
  obtain ⟨op, -, rfl⟩ := List.mem_map.mp hr
  obtain ⟨op', -, rfl⟩ := List.mem_map.mp hr'
  obtain ⟨hop, -⟩ := rowOf_matches_iff.mp hmatch
  obtain ⟨hop', -⟩ := rowOf_matches_iff.mp hmatch'
  rw [← hop, ← hop']

/-- Settles O1: sixteen words, each decoded. -/
theorem workedEncodingsDecode : Obligations.WorkedEncodingsDecode := ⟨by decide, by decide⟩

end Sys2Proof
end

section
/-! 10_state.md R30, 20_memory.md R51 and 60_exceptions.md R190: what a word does depends on neither the port nor the responses
so far, leaves the port and adds one response; so a run goes through, a word and a response a step. -/

namespace Sys2Proof.Machine

/-- The state with the model's own two fields, which are no state elements (10_state.md R27), set to `ws` and `rs`. -/
def State.withPortRsps (s : State) (ws : List Word) (rs : List Rsp) : State := { s with port := ws, rsps := rs }

theorem exec_answer_of_writesNothing {i : Instr} (hi : WritesNothing i) (s : State) : ∃ (t : State) (r : Rsp), ∀ ws rs,
    exec i (s.withPortRsps ws rs) = .next (t.withPortRsps ws (rs ++ [r])) := by
  obtain ⟨r, hr⟩ := exec_of_writesNothing hi s
  exact ⟨s, r, fun ws rs => hr (s.withPortRsps ws rs) ⟨rfl, rfl, rfl, rfl⟩⟩

/-- One next state of the elements and one response, whatever waits in the port and has been answered. -/
theorem exec_answer (i : Instr) (s : State) : ∃ (t : State) (r : Rsp), ∀ ws rs,
    exec i (s.withPortRsps ws rs) = .next (t.withPortRsps ws (rs ++ [r])) := by
  cases i with
  | fsPush d =>
    by_cases hfull : s.bufCap = some s.buf.length
    · exact ⟨raiseOvf s, .err .overflow, fun ws rs => exec_fsPush_full d (s := s.withPortRsps ws rs) hfull⟩
    · exact ⟨s.setBuf (s.buf ++ [d]), .ok, fun ws rs => exec_fsPush_room d (s := s.withPortRsps ws rs) hfull⟩
  | crcInit => exact ⟨(s.setAcc 0xFFFF#16).setCnt 0, .ok, fun _ _ => rfl⟩
  | crcUpd d => exact ⟨(s.setAcc (crcByte s.acc d)).setCnt (cntSucc s.cnt), .ok, fun _ _ => rfl⟩
  | fsCommit => exact ⟨s.setBuf (commit s.buf).rest, .frames (commit s.buf).frames (commit s.buf).dropped, fun _ _ => rfl⟩
  | fsClear => exact ⟨s.setBuf [], .ok, fun _ _ => rfl⟩
  | nop | crcGet | crcChk | fsStat | fsPeek => exact exec_answer_of_writesNothing (by simp [WritesNothing, IsRead]) s

theorem runWord_of_decode {w : Word} {i : Instr} (h : decode w = .ok i) (s : State) : runWord w s = exec i s := by
  rw [runWord, h]

theorem runWord_answer (w : Word) (s : State) : ∃ (t : State) (r : Rsp), ∀ ws rs,
    runWord w (s.withPortRsps ws rs) = .next (t.withPortRsps ws (rs ++ [r])) := by
  cases h : decode w with
  | ok i => simpa only [runWord_of_decode h] using exec_answer i s
  | error why => exact ⟨s, .err .illegal, fun _ _ => runWord_of_error ⟨why, h⟩ _⟩

/-- Settles O10: two states with the same elements differ in port and responses alone. -/
theorem responseDependsOnTheElementsAlone : Obligations.ResponseDependsOnTheElementsAlone := by
  intro w s s' hacc hcnt hbuf hovf hcap
  have hs' : s' = s.withPortRsps s'.port s'.rsps := by
    rw [State.withPortRsps, hacc, hcnt, hbuf, hovf, hcap]
  obtain ⟨t, r, hrun⟩ := runWord_answer w s
  have hrun' := hrun s'.port s'.rsps
  rw [← hs'] at hrun'
  exact ⟨_, _, r, hrun s.port s.rsps, hrun', rfl, rfl, rfl, rfl, rfl, rfl⟩

theorem runWord_port_rsps {w : Word} {s t : State} (ht : runWord w s = .next t) :
    t.port = s.port ∧ ∃ r, t.rsps = s.rsps ++ [r] := by
  obtain ⟨u, r, hrun⟩ := runWord_answer w s
  obtain rfl := Host.Outcome.next.inj ((hrun s.port s.rsps).symm.trans ht)
  exact ⟨rfl, r, rfl⟩

theorem runSteps_of_port_nil {s : State} (h : s.port = []) (k : Nat) : runSteps k s = .next s := by
  induction k with
  | zero => rfl
  | succ k ih =>
    have hstep : step s = .next s := by rw [step, takeWord_none.mpr h, holdState]
    rw [runSteps_succ hstep, ih]

theorem step_takes_word {s : State} {w : Word} {ws : List Word} (hport : s.port = w :: ws) :
    ∃ t, step s = .next t ∧ t.port = ws ∧ t.rsps.length = s.rsps.length + 1 ∧ t.bufCap = s.bufCap := by
  obtain ⟨t, ht⟩ := runWord_total w (s.setPort ws)
  obtain ⟨htport, r, hrsps⟩ := runWord_port_rsps ht
  exact ⟨t, (step_of_port hport).trans ht, htport, by simp [hrsps], runWord_bufCap (s := s.setPort ws) ht⟩

/-- Settles O8: by induction on the steps; each takes the word at the head of the port, until none is left. -/
theorem noCommandStopsTheBlock : Obligations.NoCommandStopsTheBlock := by
  intro k s
  induction k generalizing s with
  | zero => exact ⟨s, rfl, rfl, by simp, rfl⟩
  | succ k ih =>
    cases hport : s.port with
    | nil => exact ⟨s, runSteps_of_port_nil hport _, by simp [hport], by simp, rfl⟩
    | cons w ws =>
      obtain ⟨u, hstep, huport, hursps, hucap⟩ := step_takes_word hport
      obtain ⟨t, hrun, htport, htrsps, htcap⟩ := ih u
      refine ⟨t, (runSteps_succ hstep).trans hrun, by rw [htport, huport, List.drop_succ_cons], ?_, htcap.trans hucap⟩
      rw [htrsps, hursps, huport, List.length_cons]
      omega

/-- Settles O9: a run over words performs them one by one, whatever stood in the port. -/
theorem runFoldsTheCommandsInOrder : Obligations.RunFoldsTheCommandsInOrder :=
  fun s ws later => runSteps_withWords (s.withWords []) ws later

theorem tableWord_toNat (w : Word) : tableWord 16 w.toNat = w := by
  rw [tableWord, Nat.mod_eq_of_lt w.isLt, BitVec.ofNat_toNat, BitVec.setWidth_eq]

/-- Settles O5: the step takes the word at the head of the port; with none it holds the state. -/
theorem stepRunsTheDecodedCommand : Obligations.StepRunsTheDecodedCommand := by
  refine ⟨fun s w ws i hport hi => (step_of_port hport).trans (runWord_of_decode hi _), fun s i => ?_,
    fun s hport k => runSteps_of_port_nil hport k⟩
  rw [State.withFetchWord, tableWord_toNat, step_presentWord, runWord_encode]

end Sys2Proof.Machine
end

section
/-! 41_splitter.md R135 and R141: what a commit leaves opens with no frame; and a commit that drops nothing keeps every byte
that it did not emit, so the bytes that follow continue it. -/

namespace Sys2Proof.Machine

theorem findPrefix_dropped_rest (b : List Byte) : findPrefix ((commit b).dropped ++ (commit b).rest) = none := by
  refine commit_induction (P := fun _ r => findPrefix (r.dropped ++ r.rest) = none) ?short ?notFound ?found b
  case short => exact fun b hshort => findPrefix_short (Nat.lt_succ_of_le hshort)
  case notFound =>
    intro b _ hnone
    rwa [List.take_append_drop]
  case found => exact fun _ _ _ _ ih => ih

/-- Settles O34: what the frames leave opens with nothing valid, by induction on the rounds. -/
theorem noFrameIsHeldBack : Obligations.NoFrameIsHeldBack := fun b =>
  ⟨(commit_conserves b).trans (List.append_assoc ..), findPrefix_eq_none_iff.mp (findPrefix_dropped_rest b)⟩

/-- The result `r` with the frames `fs`, extracted before it, in front of its own. -/
def CommitResult.after (fs : List (List Byte)) (r : CommitResult) : CommitResult := ⟨fs ++ r.frames, r.dropped, r.rest⟩

theorem commit_append_of_dropped_nil (b y : List Byte) : (commit b).dropped = [] →
    commit (b ++ y) = .after (commit b).frames (commit ((commit b).rest ++ y)) := by
  refine commit_induction (P := fun b r => r.dropped = [] → commit (b ++ y) = .after r.frames (commit (r.rest ++ y)))
    ?short ?notFound ?found b
  case short => exact fun _ _ _ => rfl
  case notFound =>
    intro b h4 _ hdropped
    have hlen : (b.take (b.length - 3)).length = 0 := congrArg List.length hdropped
    rw [List.length_take] at hlen
    omega
  case found =>
    intro b i later h ih hdropped
    rw [← List.take_append_drop i b, List.append_assoc, commit_append_of_findPrefix (findPrefix_take_self h),
      ih hdropped, List.take_append_drop]
    rfl

/-- Settles O36: by induction on the rounds of the first commit; a frame cut after its fourth byte is lost. -/
theorem ingestComposesWhereNothingIsDropped : Obligations.IngestComposesWhereNothingIsDropped := by
  refine ⟨fun b x y hdropped => ?_, [], Tests.frameS6.take 4, Tests.frameS6.drop 4, by decide +kernel⟩
  rw [ingest, ← List.append_assoc]
  exact commit_append_of_dropped_nil (b ++ x) y hdropped

end Sys2Proof.Machine
end

section
/-! 20_memory.md R41 and the frames of 40_crc.md Part 3, 41_splitter.md Part 2 and 42_system.md: what each command leaves of the
memory and of the rest of the state. Then 10_state.md R32: what reset sets, beside what `FS_CLEAR` leaves. -/

namespace Sys2Proof.Machine

theorem eq_addRsp_of_writesNothing {i : Instr} {s t : State} (hi : WritesNothing i) (ht : exec i s = .next t) :
    ∃ r, t = s.addRsp r := by
  obtain ⟨r, hr⟩ := exec_of_writesNothing hi s
  exact ⟨r, Host.Outcome.next.inj (ht.symm.trans (hr s (.refl s)))⟩

theorem writesNothing_or_updatesCrc {i : Instr} (hcommit : i ≠ .fsCommit) (hclear : i ≠ .fsClear)
    (hpush : ∀ d, i ≠ .fsPush d) : WritesNothing i ∨ i = .crcInit ∨ ∃ d, i = .crcUpd d := by
  cases i with
  | nop | crcGet | crcChk | fsStat | fsPeek => exact .inl (by simp [WritesNothing, IsRead])
  | crcInit => exact .inr (.inl rfl)
  | crcUpd d => exact .inr (.inr ⟨d, rfl⟩)
  | fsPush d => exact absurd rfl (hpush d)
  | fsCommit | fsClear => contradiction

theorem exec_fsPush_frame {d : Byte} {s t : State} (ht : exec (.fsPush d) s = .next t) :
    (∀ k, k ≠ s.buf.length → Memory.read t.buf k = Memory.read s.buf k) ∧
    Memory.read t.buf s.buf.length = (if s.bufCap = some s.buf.length then none else some d) ∧
    t.acc = s.acc ∧ t.cnt = s.cnt ∧ t.bufCap = s.bufCap ∧ t.port = s.port := by
  by_cases hfull : s.bufCap = some s.buf.length
  · obtain rfl := Host.Outcome.next.inj ((exec_fsPush_full d hfull).symm.trans ht)
    rw [if_pos hfull]
    exact ⟨fun _ _ => rfl, List.getElem?_eq_none le_rfl, rfl, rfl, rfl, rfl⟩
  · obtain rfl := Host.Outcome.next.inj ((exec_fsPush_room d hfull).symm.trans ht)
    rw [if_neg hfull]
    exact ⟨fun _ => Memory.read_append_other s.buf d, Memory.read_append_last s.buf d, rfl, rfl, rfl, rfl⟩

/-- Settles O48: a command that is no commit, clear or push writes nothing, or `ACC` and `CNT` alone. -/
theorem memoryIsUntouchedElsewhere : Obligations.MemoryIsUntouchedElsewhere := by
  refine ⟨fun i s t hcommit hclear hpush ht => ?_, fun w s t hw ht => ?_, fun d s t ht => exec_fsPush_frame ht⟩
  · rcases writesNothing_or_updatesCrc hcommit hclear hpush with hi | rfl | ⟨d, rfl⟩
    · obtain ⟨r, rfl⟩ := eq_addRsp_of_writesNothing hi ht
      exact ⟨fun _ => rfl, rfl, rfl, rfl, fun _ _ => ⟨rfl, rfl⟩⟩
    · obtain rfl := Host.Outcome.next.inj ht
      exact ⟨fun _ => rfl, rfl, rfl, rfl, fun hinit _ => absurd rfl hinit⟩
    · obtain rfl := Host.Outcome.next.inj ht
      exact ⟨fun _ => rfl, rfl, rfl, rfl, fun _ hupd => absurd rfl (hupd d)⟩
  · rcases runWord_cases w s with ⟨i, hi, -⟩ | ⟨_, -, hrun⟩
    · exact absurd hi (hw i)
    · obtain rfl := Host.Outcome.next.inj (hrun.symm.trans ht)
      exact ⟨fun _ => rfl, rfl, rfl, rfl, rfl, rfl⟩

theorem commit_rest_eq_removeFront (b : List Byte) :
    (commit b).rest = Memory.removeFront b ((commit b).frames.flatten ++ (commit b).dropped).length := by
  have hconserved := congrArg (List.drop ((commit b).frames.flatten ++ (commit b).dropped).length) (commit_conserves b)
  rw [List.drop_left] at hconserved
  exact hconserved.symm

/-- Settles O49: what a commit leaves is the buffer without the bytes that went, read from its front. -/
theorem addressesMoveDownByTheBytesRemoved : Obligations.AddressesMoveDownByTheBytesRemoved := by
  refine ⟨fun s t ht => ?_, fun s t ht => ?_⟩
  · obtain rfl := eq_of_exec_fsCommit ht
    refine ⟨fun k => ?_, rfl, rfl, rfl, rfl, rfl⟩
    rw [Nat.add_comm, ← Memory.read_removeFront, ← commit_rest_eq_removeFront]
    rfl
  · obtain rfl := Host.Outcome.next.inj ht
    exact ⟨Memory.read_clear s.buf, rfl, rfl, rfl, rfl, rfl⟩

/-- Settles O54: by the reset values and the next state of `FS_CLEAR`; it keeps an `ACC`, `CNT` and `OVF` that reset does not. -/
theorem resetSetsTheFourElements : Obligations.ResetSetsTheFourElements := by
  refine ⟨fun _ => ⟨rfl, rfl, rfl, rfl⟩, fun _ => rfl, ⟨rfl, rfl, rfl, rfl⟩, fun s t ht => ?_, ?_⟩
  · obtain rfl := Host.Outcome.next.inj ht
    exact ⟨rfl, rfl, rfl, rfl, rfl⟩
  · exact ⟨Tests.blockState 0x0000#16 1 [] true none, _, rfl, by decide⟩

end Sys2Proof.Machine
end

section
/-! 30_encoding.md R74 and 92_eei_decisions.md D8: the forms that are not admissible, and the FIFO with end marks, whose marks
give the frames back. -/

namespace Sys2Proof.Machine

/-- What the FIFO sends of `Frames` before `dropped`: each frame and its end mark. -/
def markedFrames (fs : List (List Byte)) : List (Option Byte) := fs.flatMap fun f => f.map some ++ [none]

theorem markedFifo_send_frames (fs : List (List Byte)) (dropped : List Byte) :
    markedFifo.send (.frames fs dropped) = markedFrames fs ++ dropped.map some := rfl

theorem markedFifo_crcPair_send (v : Word) : markedFifo.crcPair (markedFifo.send (.crc v)) = some (lo8 v, hi8 v) := rfl

theorem markedFrames_cons (f : List Byte) (fs : List (List Byte)) :
    markedFrames (f :: fs) = f.map some ++ none :: markedFrames fs := by
  simp [markedFrames]

/-- What stands behind the last end mark is no part of the frames. -/
theorem strip_markedFrames (fs : List (List Byte)) (dropped : List Byte) :
    ((markedFrames fs ++ dropped.map some).reverse.dropWhile Option.isSome).reverse = markedFrames fs := by
  have hdropped : ∀ x ∈ (dropped.map some).reverse, x.isSome = true := by simp
  have hmarked : (markedFrames fs).reverse.dropWhile Option.isSome = (markedFrames fs).reverse := by
    cases fs using List.reverseRecOn <;> simp [markedFrames]
  rw [List.reverse_append, List.dropWhile_append_of_pos hdropped, hmarked, List.reverse_reverse]

theorem filterMap_markedFrames (fs : List (List Byte)) : (markedFrames fs).filterMap id = fs.flatten := by
  induction fs with
  | nil => rfl
  | cons f fs ih =>
    rw [markedFrames_cons, List.filterMap_append, List.filterMap_cons_none rfl, ih]
    simp

theorem takeWhile_isSome_marked (f : List Byte) (wire : List (Option Byte)) :
    (f.map some ++ none :: wire).takeWhile Option.isSome = f.map some := by
  rw [List.takeWhile_append_of_pos (by simp), List.takeWhile_cons_of_neg (by simp), List.append_nil]

theorem markedFrames_injective : Function.Injective markedFrames := by
  intro fs fs' h
  induction fs generalizing fs' with
  | nil =>
    cases fs' with
    | nil => rfl
    | cons => simp [markedFrames] at h
  | cons f fs ih =>
    cases fs' with
    | nil => simp [markedFrames] at h
    | cons f' fs' =>
      rw [markedFrames_cons, markedFrames_cons] at h
      have hf := congrArg (List.takeWhile Option.isSome) h
      rw [takeWhile_isSome_marked, takeWhile_isSome_marked] at hf
      obtain rfl := List.map_injective_iff.mpr (Option.some_injective Byte) hf
      obtain ⟨-, hfs⟩ := List.cons.inj (List.append_cancel_left h)
      rw [ih hfs]

theorem markedFifo_admissible : SerialisationOk markedFifo := by
  refine ⟨fun v lo hi h => ?_, fun fs dropped _ => ?_, fun fs dropped fs' dropped' _ _ h => ?_⟩
  · obtain ⟨rfl, rfl⟩ := Prod.mk.inj (Option.some.inj ((markedFifo_crcPair_send v).symm.trans h))
    rfl
  · rw [markedFifo_send_frames]
    exact (congrArg (List.filterMap id) (strip_markedFrames fs dropped)).trans (filterMap_markedFrames fs)
  · rw [markedFifo_send_frames, markedFifo_send_frames] at h
    apply markedFrames_injective
    rw [← strip_markedFrames fs dropped, h, strip_markedFrames]

/-- Settles O57: joined bytes do not tell an emitted frame from dropped bytes; each other form breaks the order of bytes that
the rule fixes. -/
theorem concatenationLosesFrameBoundaries : Obligations.ConcatenationLosesFrameBoundaries := by
  obtain ⟨hemits, -⟩ := Tests.witness_FsCommitEmits
  refine ⟨fun Wire form wire hsend hok => ?_, fun Wire form v hpair hne hok => ?_,
    fun Wire form f dropped hf hbytes hne hok => ?_, fun Wire form f f' dropped hf hf' hbytes hne hok => ?_,
    markedFifo_admissible, markedFifo_crcPair_send 0x4338#16⟩ <;> obtain ⟨hcrc, hframes, hmarks⟩ := hok
  · have hjoined : form.send (.frames [Tests.frameS6] []) = form.send (.frames [] Tests.frameS6) := by
      rw [hsend, hsend]
      rfl
    exact absurd (hmarks _ _ _ _ (List.forall_mem_singleton.mpr hemits) (List.forall_mem_nil _) hjoined) nofun
  · obtain ⟨hhi, -⟩ : hi8 v = lo8 v ∧ lo8 v = hi8 v := by simpa [toLE16] using hcrc v _ _ hpair
    exact hne hhi
  · have hinOrder := hframes [f] dropped (List.forall_mem_singleton.mpr hf)
    exact hne (by simpa [hbytes] using hinOrder)
  · have hinOrder := hframes [f, f'] dropped (List.forall_mem_cons.mpr ⟨hf, List.forall_mem_singleton.mpr hf'⟩)
    exact hne (by simpa [hbytes] using hinOrder)

end Sys2Proof.Machine
end
